-- ==== Sys2Proof/Word.lean ====
section
/-! DEFINITION. The byte, the 7-bit register address of a frame, the level of a line, and ASCII
text as a list of bytes (00_scope.md R9). -/
namespace Sys2Proof

/-- A byte: bit 7 is its most significant bit (R9). -/
abbrev Byte := BitVec 8

/-- A register address proper, 0x00 .. 0x7f: bits 6:0 of the address byte of a frame (R58, R91). -/
abbrev RegAddr := BitVec 7

/-- Level of the `RST` and `IOUP` lines, and of an asserted chip-select (R32, R7). -/
inductive Level where
  | low
  | high
deriving DecidableEq, Repr

/-- The byte of an ASCII character. -/
def ascii (c : Char) : Byte := BitVec.ofNat 8 c.toNat

/-- The bytes of an ASCII text. -/
def text (cs : List Char) : List Byte := cs.map ascii

/-- `NUM_SLOTS` (R6): "4 in the reference electrical wiring". -/
abbrev numSlots : Nat := 4

end Sys2Proof
end

