-- ==== Sys2Proof/Config.lean ====
section
/-! DEFINITION. The parameters of 00_scope.md R7, the constraints R8 a configuration must satisfy,
the free value of a device's answer (20_memory.md R57), and the configuration the reset state holds
(the fixture `CFG_T` of 95_test_vectors.md section 0.2; notes/assumptions/1.md). -/
namespace Sys2Proof

/-- Order of the bits of a byte on the synchronous bus (`SPI_BIT_ORDER`, R7, D18); no rule reads it. -/
inductive BitOrder where
  | msbFirst
  | lsbFirst
deriving DecidableEq, Repr

/-- `SERIAL_CFG` (R7, R247); no rule reads it. -/
structure SerialCfg where
  baud : Nat
  dataBits : Nat
  stopBits : Nat
deriving DecidableEq, Repr

/-- The implementation parameters the source names and leaves open (R7). -/
structure Config where
  /-- The entries of the Register Table (R31): address and length, 0 .. 8 (`MAX_REG_LEN`). -/
  table : List (Byte × Fin 9)
  /-- `ADDR_PROFILE0` -/
  addrProfile0 : Byte
  /-- `DEFAULT_PROFILE0`, 8 bytes -/
  defaultProfile0 : Vector Byte 8
  /-- `ADDR_PROBE` -/
  addrProbe : Byte
  /-- `ADDR_TEST` -/
  addrTest : Byte
  /-- `TEST_DATA(0)` -/
  testData0 : List Byte
  /-- `TEST_DATA(1)` -/
  testData1 : List Byte
  /-- `ADDR_REFDIV` -/
  addrRefdiv : Byte
  /-- `DATA_REFDIV` -/
  dataRefdiv : List Byte
  /-- `ADDR_3WIRE` -/
  addr3wire : Byte
  /-- `DATA_3WIRE` -/
  data3wire : List Byte
  /-- `ADDR_AMPCTL` -/
  addrAmpctl : Byte
  /-- `DATA_AMPCTL` -/
  dataAmpctl : List Byte
  /-- `READ_CAPABLE` -/
  readCapable : Bool
  /-- `IDN_STRING` -/
  idnString : List Byte
  /-- `BOOT_INIT` -/
  bootInit : Bool
  /-- `T_SETTLE`, in nanoseconds; no rule reads it (R286). -/
  tSettle : Nat
  /-- `T_TICK`, in nanoseconds; no rule reads it (R246). -/
  tTick : Nat
  serial : SerialCfg
  /-- `CS_ACTIVE_LEVEL`; no rule reads it (D16). -/
  csActiveLevel : Level
  spiBitOrder : BitOrder
  /-- `SPI_CLOCK_MODE`, clock polarity and phase; no rule reads it (D18). -/
  spiClockMode : Fin 4
deriving DecidableEq, Repr

/-- `REG_LEN` (R7, R31): the length of the address's entry; 0 for an address with no entry (R8 (a)). -/
def Config.regLen (c : Config) (a : Byte) : Nat :=
  match c.table.lookup a with
  | some n => n.val
  | none => 0

/-- `TEST_DATA` (R7). -/
def Config.testData (c : Config) (bit : Bool) : List Byte :=
  if bit then c.testData1 else c.testData0

/-- The constraints of R8, which a claim takes as a hypothesis on the configuration, and the type R7
gives `IDN_STRING` ("ASCII string without newline"). That lengths are 0 .. 8 is in the type. -/
structure Config.Valid (c : Config) : Prop where
  /-- (a) at most 16 entries -/
  entries : c.table.length ≤ 16
  /-- (b) no address with bit 7 set is transferable -/
  readBit : ∀ a : Byte, 0x80 ≤ a.toNat → c.regLen a = 0
  /-- (c) -/
  profile0 : c.regLen c.addrProfile0 = 8
  /-- (d) -/
  probe : 3 ≤ c.regLen c.addrProbe
  /-- (e) -/
  test : 1 ≤ c.regLen c.addrTest
  testLen : ∀ bit, (c.testData bit).length = c.regLen c.addrTest
  refdiv : 1 ≤ c.regLen c.addrRefdiv
  refdivLen : c.dataRefdiv.length = c.regLen c.addrRefdiv
  wire3 : 1 ≤ c.regLen c.addr3wire
  wire3Len : c.data3wire.length = c.regLen c.addr3wire
  ampctl : 1 ≤ c.regLen c.addrAmpctl
  ampctlLen : c.dataAmpctl.length = c.regLen c.addrAmpctl
  /-- (f) -/
  alternates : c.testData false ≠ c.testData true
  /-- `IDN_STRING` is ASCII and holds no newline (R7). -/
  idn : ∀ b ∈ c.idnString, b.toNat < 0x80 ∧ b ≠ 0x0a

/-- FREE VALUE. What a device answers to the n-th byte shifted since the machine was built, where the
environment's script `State.answers` says nothing (R57: "chosen by the environment, with no law";
notes/assumptions/3.md). -/
opaque Config.deviceByte : Nat → BitVec 8

/-- DESIGN CHOICE (unsafe; notes/assumptions/1.md): the configuration the reset state holds, the
fixture `CFG_T` of 95_test_vectors.md section 0.2. The fields no rule reads hold the figures of R7. -/
def Config.fixture : Config where
  table :=
    [(0x00, 4), (0x01, 4), (0x02, 4), (0x03, 4), (0x04, 4), (0x05, 2), (0x06, 0), (0x07, 4),
     (0x08, 2), (0x09, 4), (0x0a, 4), (0x0b, 8), (0x0c, 8), (0x0d, 4), (0x0e, 2), (0x0f, 8)]
  addrProfile0 := 0x0f
  defaultProfile0 := #v[0x08, 0xb5, 0x00, 0x00, 0x00, 0x00, 0x00, 0x00]
  addrProbe := 0x00
  addrTest := 0x08
  testData0 := [0x00, 0x00]
  testData1 := [0x00, 0x01]
  addrRefdiv := 0x02
  dataRefdiv := [0x1f, 0x3f, 0xc0, 0x00]
  addr3wire := 0x00
  data3wire := [0x00, 0x00, 0x00, 0x02]
  addrAmpctl := 0x01
  dataAmpctl := [0x01, 0x00, 0x00, 0x00]
  readCapable := true
  idnString := text ['C', 'G', '-', 'D', 'D', 'S', '-', 'B', 'R', 'I', 'D', 'G', 'E']
  bootInit := true
  tSettle := 0
  tTick := 1000000
  serial := { baud := 57600, dataBits := 8, stopBits := 2 }
  csActiveLevel := .low
  spiBitOrder := .msbFirst
  spiClockMode := 0

end Sys2Proof
end

