-- ==== Sys2Proof/Syntax.lean ====
section
/-! DEFINITION. The twelve instructions, one constructor per row of opcode_table.json
(30_encoding.md R96): ten operator commands and the two frames of the Transfer Protocol. -/
namespace Sys2Proof

/-- A decoded instruction. Slot operands are the three bits the parser accepts (R24: 0 .. 7, wider
than `NUM_SLOTS`); bytes are decoded from their hex digits (R88). -/
inductive Instr where
  /-- `X` (R82) -/
  | resetAll
  /-- `?` (R82) -/
  | presence
  /-- `/` (R82) -/
  | abort
  /-- `*IDN?` (R83) -/
  | idn
  /-- `I<N>T` (R84) -/
  | test (slot : Fin 8)
  /-- `I<N>R<AA>` and a terminator byte, which is no operand (R85) -/
  | rdreg (slot : Fin 8) (addr : Byte)
  /-- `I<N>R<AA>L<L>D<hex*2L>` (R86); the count `L` is the number of bytes -/
  | wrreg (slot : Fin 8) (addr : Byte) (data : List Byte)
  /-- `I<N>F<hex*8>` (R87) -/
  | setf (slot : Fin 8) (f0 f1 f2 f3 : Byte)
  /-- `I<N>A<hex*4>` (R87) -/
  | seta (slot : Fin 8) (w0 w1 : Byte)
  /-- `I<N>P<hex*4>` (R87) -/
  | setp (slot : Fin 8) (w0 w1 : Byte)
  /-- Write frame `0aaaaaaa` and data bytes, on the chip-select of `slot` (R92) -/
  | spiWr (slot : Fin 8) (a : RegAddr) (data : List Byte)
  /-- Read frame `1aaaaaaa` and zero bytes, on the chip-select of `slot` (R93); `announce` is the
  argument of `DevRead` (R204) -/
  | spiRd (slot : Fin 8) (a : RegAddr) (announce : Bool)
deriving DecidableEq, Repr

end Sys2Proof
end

