-- ==== Sys2Proof/WellFormed.lean ====
section
/-! DEFINITION. Which instructions the two encodings can spell: the count digit is `'1'..'9'`
(30_encoding.md R81, R86), a frame has 1 to 8 data bytes (R91) and goes to one of the four
chip-selects (42_transfer.md R200). Slot digits 5 to 8 are legal for the commands (R94). -/
namespace Sys2Proof

/-- The count of a write is 1 .. 9 (R86). -/
def countOk (data : List Byte) : Bool := decide (1 ≤ data.length) && decide (data.length ≤ 9)

/-- The payload of a frame is 1 .. 8 bytes (R91). -/
def payloadOk (data : List Byte) : Bool := decide (1 ≤ data.length) && decide (data.length ≤ 8)

/-- A frame needs a wired slot (R200). -/
def wiredSlot (slot : Fin 8) : Bool := decide (slot.val < numSlots)

def Instr.wellFormed : Instr → Bool
  | .resetAll => true
  | .presence => true
  | .abort => true
  | .idn => true
  | .test _ => true
  | .rdreg _ _ => true
  | .wrreg _ _ data => countOk data
  | .setf _ _ _ _ _ => true
  | .seta _ _ _ => true
  | .setp _ _ _ => true
  | .spiWr slot _ data => wiredSlot slot && payloadOk data
  | .spiRd slot _ _ => wiredSlot slot

end Sys2Proof
end

