-- ==== Sys2Proof/Decode.lean ====
section
/-! DEFINITION. The decoder of operator commands and of bus frames, total on any bytes and
rejecting by name, and the encoder (30_encoding.md R80 to R93). A command is read from the front of
a list of bytes and the rest is returned; a frame is all the bytes of one chip-select assertion. -/
namespace Sys2Proof

/-! ## Digits and operand assembly (R88, R89, R174) -/

/-- The class `HEX` (R81): `'0'..'9'`, `'a'..'f'`. -/
def isHex (c : Byte) : Bool :=
  (decide (0x30 ≤ c.toNat) && decide (c.toNat ≤ 0x39)) ||
  (decide (0x61 ≤ c.toNat) && decide (c.toNat ≤ 0x66))

/-- `HexVal` (R88), not defined outside `HEX`. -/
def hexVal (c : Byte) : Option Nat :=
  if 0x30 ≤ c.toNat ∧ c.toNat ≤ 0x39 then some (c.toNat - 0x30)
  else if 0x61 ≤ c.toNat ∧ c.toNat ≤ 0x66 then some (c.toNat - 0x61 + 10)
  else none

/-- `HexByte` (R88): high digit first, weights 16 and 1. -/
def hexByte (c0 c1 : Byte) : Option Byte :=
  match hexVal c0, hexVal c1 with
  | some h, some l => some (BitVec.ofNat 8 (16 * h + l))
  | _, _ => none

/-- `D(n)` of R174: the lowercase hex digit of n < 16. -/
def hexDigit (n : Nat) : Byte :=
  if n < 10 then BitVec.ofNat 8 (0x30 + n) else BitVec.ofNat 8 (0x61 + (n - 10))

/-- `Hex2` (R174): the two lowercase hex digits of a byte, high digit first. -/
def hex2 (v : Byte) : List Byte := [hexDigit (v.toNat / 16), hexDigit (v.toNat % 16)]

/-- `SLOT = b - 0x31` for a byte of the class `SLOTD` (R89). -/
def slotOfDigit (b : Byte) : Option (Fin 8) :=
  if h : 0x31 ≤ b.toNat ∧ b.toNat ≤ 0x38 then some ⟨b.toNat - 0x31, by omega⟩ else none

/-- The operator's digit of a slot (R174: `'1' + slot`). -/
def digitOfSlot (slot : Fin 8) : Byte := BitVec.ofNat 8 (0x31 + slot.val)

/-- `NLEN = b - 0x30` for a byte of the class `LEND` (R89). -/
def countOfDigit (b : Byte) : Option (Fin 16) :=
  if h : 0x31 ≤ b.toNat ∧ b.toNat ≤ 0x39 then some ⟨b.toNat - 0x30, by omega⟩ else none

/-- The count digit of a write of n bytes. -/
def digitOfCount (n : Nat) : Byte := BitVec.ofNat 8 (0x30 + n)

/-! ## Rejections -/

/-- Why a list of bytes is no command or no frame (R94). -/
inductive Reject where
  /-- the bytes end before the command does -/
  | truncated
  /-- byte 0 is none of `I X ? * /` (R97) -/
  | firstByte
  /-- a byte that is not the next character of `*IDN?` (R83) -/
  | idnMismatch
  /-- a slot digit outside `'1'..'8'` (R131) -/
  | slotDigit
  /-- a third byte outside `T R F A P` (R131) -/
  | selector
  /-- a byte that is not a hex digit where one is needed (R124, R130, R133, R135, R137) -/
  | hexDigit
  /-- `/` in the place of a read's terminator: it aborts (R112) -/
  | aborted
  /-- a count digit outside `'1'..'9'` (R128) -/
  | countDigit
  /-- a byte other than `D` after the count (R128) -/
  | dataMarker
  /-- a frame of no bytes (R91) -/
  | emptyFrame
  /-- a frame on a slot that is not wired (R200) -/
  | frameSlot
  /-- a write frame without 1 .. 8 data bytes (R91) -/
  | framePayload
  /-- a read frame that shifts out a byte other than 0x00 (R93) -/
  | frameNotZero
deriving DecidableEq, Repr

/-! ## Commands -/

/-- n bytes from 2n hex digits, and the rest (R89). -/
def takeHexBytes : Nat → List Byte → Except Reject (List Byte × List Byte)
  | 0, bs => .ok ([], bs)
  | n + 1, c0 :: c1 :: bs =>
    match hexByte c0 c1 with
    | none => .error .hexDigit
    | some v =>
      match takeHexBytes n bs with
      | .error e => .error e
      | .ok (vs, rest) => .ok (v :: vs, rest)
  | _ + 1, [c0] => .error (if isHex c0 then .truncated else .hexDigit)
  | _ + 1, [] => .error .truncated

/-- After `I<N>R<AA>`: `L` continues into a write, `/` aborts, any other byte is the terminator of a
read (R85, R86). -/
def decodeRegister (slot : Fin 8) (addr : Byte) : List Byte → Except Reject (Instr × List Byte)
  | [] => .error .truncated
  | b :: bs =>
    if b = 0x2f then .error .aborted
    else if b = 0x4c then -- 'L'
      match bs with
      | [] => .error .truncated
      | l :: bs =>
        match countOfDigit l with
        | none => .error .countDigit
        | some n =>
          match bs with
          | [] => .error .truncated
          | d :: bs =>
            if d = 0x44 then -- 'D'
              match takeHexBytes n.val bs with
              | .error e => .error e
              | .ok (data, rest) => .ok (.wrreg slot addr data, rest)
            else .error .dataMarker
    else .ok (.rdreg slot addr, bs)

/-- After `I<N>`: the format selector (R81, R97). -/
def decodeIndexed (slot : Fin 8) : List Byte → Except Reject (Instr × List Byte)
  | [] => .error .truncated
  | b :: bs =>
    if b = 0x54 then .ok (.test slot, bs) -- 'T'
    else if b = 0x52 then -- 'R'
      match takeHexBytes 1 bs with
      | .error e => .error e
      | .ok ([addr], rest) => decodeRegister slot addr rest
      | .ok _ => .error .truncated
    else if b = 0x46 then -- 'F'
      match takeHexBytes 4 bs with
      | .error e => .error e
      | .ok ([f0, f1, f2, f3], rest) => .ok (.setf slot f0 f1 f2 f3, rest)
      | .ok _ => .error .truncated
    else if b = 0x41 then -- 'A'
      match takeHexBytes 2 bs with
      | .error e => .error e
      | .ok ([w0, w1], rest) => .ok (.seta slot w0 w1, rest)
      | .ok _ => .error .truncated
    else if b = 0x50 then -- 'P'
      match takeHexBytes 2 bs with
      | .error e => .error e
      | .ok ([w0, w1], rest) => .ok (.setp slot w0 w1, rest)
      | .ok _ => .error .truncated
    else .error .selector

/-- The bytes after a token's expected characters (R83). -/
def takeToken : List Byte → List Byte → Except Reject (List Byte)
  | [], bs => .ok bs
  | _ :: _, [] => .error .truncated
  | e :: es, b :: bs => if b = e then takeToken es bs else .error .idnMismatch

/-- After `*`: the other four characters `I`, `D`, `N`, `?` of the token (R83). -/
def decodeIdn (bs : List Byte) : Except Reject (Instr × List Byte) :=
  match takeToken [0x49, 0x44, 0x4e, 0x3f] bs with
  | .error e => .error e
  | .ok rest => .ok (.idn, rest)

/-- One command from the front of a byte stream, and the rest (R81, R97). -/
def decodeCommand : List Byte → Except Reject (Instr × List Byte)
  | [] => .error .truncated
  | b :: bs =>
    if b = 0x58 then .ok (.resetAll, bs) -- 'X'
    else if b = 0x3f then .ok (.presence, bs) -- '?'
    else if b = 0x2f then .ok (.abort, bs) -- '/'
    else if b = 0x2a then decodeIdn bs -- '*'
    else if b = 0x49 then -- 'I'
      match bs with
      | [] => .error .truncated
      | n :: bs =>
        match slotOfDigit n with
        | none => .error .slotDigit
        | some slot => decodeIndexed slot bs
    else .error .firstByte

/-! ## Frames -/

/-- The bytes shifted while the chip-select of `slot` is asserted (R91 to R93). Bit 7 of the address
byte is the read bit. The zero bytes of a read frame are no operand; the data of a write frame are all
the bytes that follow. -/
def decodeFrame (slot : Fin 8) (announce : Bool) : List Byte → Except Reject Instr
  | [] => .error .emptyFrame
  | o :: bs =>
    if !wiredSlot slot then .error .frameSlot
    else if o.getLsbD 7 then
      if bs.all (· == 0) then .ok (.spiRd slot (o.setWidth 7) announce) else .error .frameNotZero
    else if payloadOk bs then .ok (.spiWr slot (o.setWidth 7) bs)
    else .error .framePayload

/-! ## The encoder -/

/-- The hex digits of a list of bytes, in order (R52 (b)). -/
def hexDigits (data : List Byte) : List Byte := data.flatMap hex2

/-- The bytes of a well-formed instruction, from R82 to R87 (commands) and R92, R93 (frames). A read
is ended by a line feed, "a byte with no meaning of its own" (R281; notes/assumptions/8.md). The zero
bytes of a read frame, whose number the Register Table gives, are left to the transfer. -/
def encode : Instr → List Byte
  | .resetAll => [0x58]
  | .presence => [0x3f]
  | .abort => [0x2f]
  | .idn => [0x2a, 0x49, 0x44, 0x4e, 0x3f]
  | .test slot => [0x49, digitOfSlot slot, 0x54]
  | .rdreg slot addr => [0x49, digitOfSlot slot, 0x52] ++ hex2 addr ++ [0x0a]
  | .wrreg slot addr data =>
    [0x49, digitOfSlot slot, 0x52] ++ hex2 addr ++ [0x4c, digitOfCount data.length, 0x44]
      ++ hexDigits data
  | .setf slot f0 f1 f2 f3 => [0x49, digitOfSlot slot, 0x46] ++ hexDigits [f0, f1, f2, f3]
  | .seta slot w0 w1 => [0x49, digitOfSlot slot, 0x41] ++ hexDigits [w0, w1]
  | .setp slot w0 w1 => [0x49, digitOfSlot slot, 0x50] ++ hexDigits [w0, w1]
  | .spiWr _ a data => a.setWidth 8 :: data
  | .spiRd _ a _ => [a.setWidth 8 ||| 0x80]

/-- Is the instruction one of the two frames of the bus encoding? -/
def Instr.isFrame : Instr → Bool
  | .spiWr _ _ _ => true
  | .spiRd _ _ _ => true
  | .resetAll => false
  | .presence => false
  | .abort => false
  | .idn => false
  | .test _ => false
  | .rdreg _ _ => false
  | .wrreg _ _ _ => false
  | .setf _ _ _ _ _ => false
  | .seta _ _ _ => false
  | .setp _ _ _ => false

/-! ## Words numbered as the opcode table numbers them -/

/-- The length of the longest command: 8 + 2 * 9 (R90). -/
def longestCommand : Nat := 26

/-- The bytes of an instruction of `nbits` bits: byte i is bits 8i+7 .. 8i of `w`, and every byte
after them is 0. -/
def tableBytes (nbits w : Nat) : List Byte :=
  (List.range (nbits / 8)).map (fun i => BitVec.ofNat 8 (w >>> (8 * i)))

/-- The bytes of `tableBytes` made up with zeros to the longest instruction. -/
def paddedBytes (nbits w : Nat) : List Byte :=
  tableBytes nbits w ++ List.replicate (longestCommand - nbits / 8) 0

/-- The frame a single address byte stands for: up to eight zero bytes follow it (R91). -/
def tableFrame (nbits w : Nat) : List Byte := tableBytes nbits w ++ List.replicate 8 0

/-- The instruction the decoder reads from an instruction of the opcode table. The table lists both
encodings: a byte that is a whole command is read as the command, any other single byte as the
address byte of a frame on slot 0, not announced (notes/assumptions/8.md). -/
def decodeTableWord (nbits w : Nat) : Option Instr :=
  match decodeCommand (paddedBytes nbits w) with
  | .ok (i, _) => some i
  | .error _ =>
    if nbits = 8 then
      match decodeFrame 0 false (tableFrame nbits w) with
      | .ok i => some i
      | .error _ => none
    else none

end Sys2Proof
end

