-- ==== Sys2Proof/Machine/State.lean ====
section
/-! DEFINITION. The state of the controller (10_state.md R20 to R34), the environment's data, the
reasons a step can stop, and the state after reset (R36, 70_reset_and_hazards.md R270). -/
namespace Sys2Proof.Machine

/-! ## The pieces of state -/

/-- `PSTATE` (R21): the nine states of the parser, in the order D2 numbers them. -/
inductive PState where
  | idle
  | readingIndex
  | readingRegisterAddress
  | readingDataLength
  | readingData
  | readingFrequency
  | readingAmplitude
  | readingPhase
  | readingIdn
deriving DecidableEq, Repr

/-- `OP` (R23): the command kinds, in the order D2 numbers them. -/
inductive Kind where
  | idle
  | test
  | identify
  | reset
  | checkPresence
  | writeRegister
  | readRegister
  | setFrequency
  | setAmplitude
  | setPhase
deriving DecidableEq, Repr

/-- An event of the device trace `DEV` (00_scope.md R11). -/
inductive DevEvent where
  | rstHigh
  | rstLow
  | csAssert (k : Fin 4)
  | csDeassert (k : Fin 4)
  /-- byte `o` sent, byte `r` captured -/
  | shift (o r : Byte)
  | ioupHigh
  | ioupLow
  /-- a pause of `T_SETTLE` (R202) -/
  | settle
deriving DecidableEq, Repr

/-- The error causes of 60_exceptions.md R230 that have a constructor; `E_NO_RESPONSE` is detected by
nobody and has none (R238). -/
inductive ErrCause where
  /-- `E_MALFORMED`, the parser (R231) -/
  | malformed
  /-- `E_OVERRUN`, the parser's gate (R232) -/
  | overrun
  /-- `E_SLOT` (R233) -/
  | slot
  /-- `E_REGISTER` (R234) -/
  | register
  /-- `E_SHORT_WRITE` (R235) -/
  | shortWrite
  /-- `E_NO_READ` (R236) -/
  | noRead
  /-- `E_UNIMPLEMENTED` (R237) -/
  | unimplemented
deriving DecidableEq, Repr

/-- A step of 00_scope.md R10 that the environment or the main loop takes: the events still to come
are data of the state (notes/assumptions/4.md). -/
inductive Event where
  /-- `RxByte(b)`: the input transport delivers a byte -/
  | rxByte (b : Byte)
  /-- `Tick`: one iteration of the main loop -/
  | tick
  /-- `Reset`: power-on -/
  | reset
deriving DecidableEq, Repr

/-- What the boot initialisation still has to do, one Transfer Protocol action at a time
(42_transfer.md R206; notes/assumptions/6.md). -/
inductive Call where
  /-- `RstHigh`, `RstLow` -/
  | strobe
  /-- a frame on the chip-select of `slot`, by its bytes; `announce` for a read -/
  | frame (slot : Fin 8) (bytes : List Byte) (announce : Bool)
deriving DecidableEq, Repr

/-- The whole state. -/
structure State where
  /-- `PSTATE` (R21) -/
  pstate : PState
  /-- `POS` (R22), a natural number as D35 allows; bounded by the invariant of Safety.lean -/
  pos : Nat
  /-- `OP` (R23) -/
  op : Kind
  /-- `SLOT` (R24) -/
  slot : Fin 8
  /-- `ADDRC[0..1]` (R25) -/
  addrc : Vector Byte 2
  /-- `NLEN` (R26) -/
  nlen : Fin 16
  /-- `PAY[0..17]` (R27) -/
  pay : Vector Byte 18
  /-- `RRB[0..7]` (R28) -/
  rrb : Vector Byte 8
  /-- `TEST_BIT` (R29) -/
  testBit : Bool
  /-- `BUF[0..7]` (R30) -/
  buf : Vector Byte 8
  /-- `RST` (R32) -/
  rst : Level
  /-- `IOUP` (R32) -/
  ioup : Level
  /-- `CS[0..3]` (R32): true is asserted -/
  cs : Vector Bool 4
  /-- `OUT` (R33), oldest character first -/
  out : List Byte
  /-- `DEV` (R33), oldest event first -/
  dev : List DevEvent
  /-- the boot initialisation has not begun (R271) -/
  bootDue : Bool
  /-- what the boot initialisation still has to do (R271) -/
  calls : List Call
  /-- the configuration (R7, R37), written by no step -/
  cfg : Config
  /-- MODEL'S OWN: the events to come; when there is none left the main loop goes on -/
  input : List Event
  /-- MODEL'S OWN: for each coming gap between two events of the main loop's work, the bytes that
  arrive in it (R10, R242 (3); notes/assumptions/5.md) -/
  gaps : List (List Byte)
  /-- MODEL'S OWN: the bytes the devices answer, by number of the shift (R57; notes/assumptions/3.md) -/
  answers : List Byte
  /-- MODEL'S OWN: the number of shifts made -/
  draws : Nat
deriving DecidableEq, Repr

/-! ## Reasons a step can stop -/

/-- Faults. -/
inductive Fault where
  /-- Raised by a poll (Machine/Fetch.lean) whose pending command stores a digit that is not a hex
  digit: `HexVal` is not defined on it and "no rule applies" (R88). No run from reset reaches it
  (Safety.lean's invariant). Safe: the model stops where the spec gives no effect. -/
  | undecodableMailbox
deriving DecidableEq, Repr

/-- Refusals. -/
inductive Refusal where
  /-- Raised by exec for an instruction that has no meaning yet. Safe: the model stops. -/
  | notModelled (mnemonic : String)
  /-- Raised by `DevWrite` and `DevRead` for a slot that is not wired (R209: refuse the call). Safe:
  no command of the controller makes such a call. -/
  | transferSlot
  /-- Raised by `DevWrite` and `DevRead` for a register of length 0 (R209). Safe, as above under R8. -/
  | transferLength
  /-- Raised by `DevWrite` for fewer data bytes than the register holds (R209). Safe, as above. -/
  | transferData
  /-- Raised by a step whose awaiting frame is no frame of R91 to R93. Safe: the boot initialisation
  makes no such frame under R8. -/
  | undecodableFrame (why : Reject)
deriving DecidableEq, Repr

/-! ## Reset -/

/-- The state after the `Reset` step with configuration `c` (R36, R270) in an environment that has
scripted nothing. `RRB` and `BUF`, which R36 leaves unspecified, hold zeros (DESIGN CHOICE, unsafe;
notes/assumptions/2.md). -/
def State.powerOn (c : Config) : State where
  pstate := .idle
  pos := 0
  op := .idle
  slot := 0
  addrc := #v[0x30, 0x30]
  nlen := 0
  pay := Vector.replicate 18 0
  rrb := Vector.replicate 8 0
  testBit := false
  buf := Vector.replicate 8 0
  rst := .low
  ioup := .low
  cs := Vector.replicate 4 false
  out := []
  dev := []
  bootDue := c.bootInit
  calls := []
  cfg := c
  input := []
  gaps := []
  answers := []
  draws := 0

/-- The machine right after reset, with the spec's fixture configuration (notes/assumptions/1.md). -/
def State.reset : State := State.powerOn Config.fixture

end Sys2Proof.Machine
end

