-- ==== Sys2Proof/Machine/Flags.lean ====
section
/-! DEFINITION. The controller's two flag-like pieces of state (10_state.md R34): `READY`, the
predicate `OP != Idle`, and `TEST_BIT`. -/
namespace Sys2Proof.Machine

/-- `READY` (R34 (1)): "command ready". -/
def State.ready (s : State) : Bool := decide (s.op ≠ .idle)

/-- Set `READY`, the resolution of a command of kind `k` (40_parser.md R138): the single shared write
`OP <- k`, together with `PSTATE <- Idle`. -/
def resolve (k : Kind) (s : State) : State := { s with op := k, pstate := .idle }

/-- Clear `READY` (41_dispatcher.md R162). -/
def clearReady (s : State) : State := { s with op := .idle }

/-- `TEST_BIT <- 1 - TEST_BIT` (R164). -/
def toggleTestBit (s : State) : State := { s with testBit := !s.testBit }

end Sys2Proof.Machine
end

