-- ==== Sys2Proof/Machine/Parser.lean ====
section
/-! DEFINITION. The Command Parser (40_parser.md): one transition per byte, total and deterministic
(R110), with the rows of each state in a definition of its own. Positions no run reaches are taken as
the row of the greatest position or as malformed (notes/assumptions/12.md). -/
namespace Sys2Proof.Machine

/-- `PSTATE <- p; POS <- n`. -/
def enter (p : PState) (n : Nat) (s : State) : State := { s with pstate := p, pos := n }

/-- `E_MALFORMED` (R231): the partial command is dropped, silently; nothing but `PSTATE` is written. -/
def dropPartial (s : State) : State := { s with pstate := .idle }

/-- The effect of `/` with the gate open (R112). -/
def abortPartial (s : State) : State := enter .idle 0 s

/-- `POS <- POS + 1`. -/
def advance (s : State) : State := { s with pos := s.pos + 1 }

/-- `Idle` (R113, R114, R115, R116, R125). -/
def parseIdle (b : Byte) (s : State) : State :=
  if b = 0x49 then enter .readingIndex 0 s -- 'I', R113
  else if b = 0x58 then resolve .reset s -- 'X', R114
  else if b = 0x3f then resolve .checkPresence s -- '?', R115
  else if b = 0x2a then enter .readingIdn 1 s -- '*', R116
  else s -- R125

/-- The p-th character, from 0, of `*IDN?`, for p in 1 .. 4 (R117). -/
def idnChar (p : Nat) : Option Byte :=
  match p with
  | 1 => some 0x49
  | 2 => some 0x44
  | 3 => some 0x4e
  | 4 => some 0x3f
  | _ => none

/-- `ReadingIdn` (R117). -/
def parseIdn (b : Byte) (s : State) : State :=
  if idnChar s.pos = some b then
    if s.pos = 4 then resolve .identify s else advance s
  else dropPartial s

/-- `ReadingIndex` (R118, R119, R120, R131). -/
def parseIndex (b : Byte) (s : State) : State :=
  if s.pos = 0 then
    match slotOfDigit b with
    | some k => { s with slot := k, pos := 1 } -- R118
    | none => dropPartial s -- R131
  else if s.pos = 1 then
    if b = 0x54 then resolve .test s -- 'T', R119
    else if b = 0x52 then enter .readingRegisterAddress 0 s -- 'R', R120
    else if b = 0x46 then enter .readingFrequency 0 s -- 'F', R120
    else if b = 0x41 then enter .readingAmplitude 0 s -- 'A', R120
    else if b = 0x50 then enter .readingPhase 0 s -- 'P', R120
    else dropPartial s -- R131
  else dropPartial s

/-- `ReadingRegisterAddress` (R121, R122, R123, R124). -/
def parseAddress (b : Byte) (s : State) : State :=
  if s.pos < 2 then
    if isHex b then { s with addrc := s.addrc.setIfInBounds s.pos b, pos := s.pos + 1 } -- R121
    else dropPartial s -- R124
  else if b = 0x4c then enter .readingDataLength 0 s -- 'L', R122
  else resolve .readRegister s -- R123

/-- `ReadingDataLength` (R126, R127, R128). -/
def parseLength (b : Byte) (s : State) : State :=
  if s.pos = 0 then
    match countOfDigit b with
    | some n => { s with nlen := n, pos := 1 } -- R126
    | none => dropPartial s -- R128
  else if s.pos = 1 then
    if b = 0x44 then enter .readingData 0 s -- 'D', R127
    else dropPartial s -- R128
  else dropPartial s

/-- `PAY[POS] <- b; POS <- POS + 1`. -/
def storeDigit (b : Byte) (s : State) : State :=
  { s with pay := s.pay.setIfInBounds s.pos b, pos := s.pos + 1 }

/-- The shared shape of R129, R132, R134, R136 and of R130, R133, R135, R137: a hex digit is stored in
`PAY[POS]` and the `bound`-th one resolves the command; any other byte drops it. -/
def parseDigit (bound : Nat) (k : Kind) (b : Byte) (s : State) : State :=
  if isHex b then
    if s.pos + 1 = bound then resolve k (storeDigit b s) else storeDigit b s
  else dropPartial s

/-- `ReadingData` (R129, R130). -/
def parseData (b : Byte) (s : State) : State := parseDigit (2 * s.nlen.val) .writeRegister b s

/-- `ReadingFrequency` (R132, R133). -/
def parseFrequency (b : Byte) (s : State) : State := parseDigit 8 .setFrequency b s

/-- `ReadingAmplitude` (R134, R135). -/
def parseAmplitude (b : Byte) (s : State) : State := parseDigit 4 .setAmplitude b s

/-- `ReadingPhase` (R136, R137). -/
def parsePhase (b : Byte) (s : State) : State := parseDigit 4 .setPhase b s

/-- The row of the current state (R110). -/
def parseRow (b : Byte) (s : State) : State :=
  match s.pstate with
  | .idle => parseIdle b s
  | .readingIdn => parseIdn b s
  | .readingIndex => parseIndex b s
  | .readingRegisterAddress => parseAddress b s
  | .readingDataLength => parseLength b s
  | .readingData => parseData b s
  | .readingFrequency => parseFrequency b s
  | .readingAmplitude => parseAmplitude b s
  | .readingPhase => parsePhase b s

/-- One `RxByte` step of the parser (R110): the gate (R111, `E_OVERRUN`: the byte is dropped), then
the escape byte (R112), then the row of the state. -/
def parserStep (b : Byte) (s : State) : State :=
  if s.op ≠ .idle then s
  else if b = 0x2f then abortPartial s
  else parseRow b s

/-- Bytes delivered one after the other, "in strict arrival order" (20_memory.md R63 (1)). -/
def parseBytes (bs : List Byte) (s : State) : State := bs.foldl (fun t b => parserStep b t) s

/-- `ABORT`, the instruction whose whole meaning is the parser's (R112): with the gate open the parser
returns to `Idle` and position 0; with it closed the byte is dropped (R111). -/
def execAbort (s : State) : Host.Outcome State Fault Refusal :=
  .next (if s.op ≠ .idle then s else abortPartial s)

end Sys2Proof.Machine
end

