-- ==== Sys2Proof/Machine/Ops.lean ====
section
/-! DEFINITION. The named operations of the main loop: the interrupt window between two events, the
line, bus and output primitives (00_scope.md R9), errors and the epilogue (60_exceptions.md R230,
41_dispatcher.md R162), and the Transfer Protocol (42_transfer.md R200 to R207). -/
namespace Sys2Proof.Machine

/-! ## Sequencing -/

/-- Go on from a next state; stop where the first part stopped. -/
def andThen (o : Host.Outcome State Fault Refusal) (f : State → Host.Outcome State Fault Refusal) :
    Host.Outcome State Fault Refusal :=
  match o with
  | .next s => f s
  | .fault r => .fault r
  | .refused r => .refused r

/-- The gap after an event of the main loop: "the interrupt handler preempts the main loop at any
point" (R10), so the bytes that arrive in this gap are parsed in order, each to its end (R242 (3),
D36). While a command executes the gate drops them all (R111); during boot they are parsed (R271). -/
def window (s : State) : State :=
  match s.gaps with
  | [] => s
  | g :: rest => parseBytes g { s with gaps := rest }

/-! ## Output (R9) -/

/-- One character handed to the output transport (R4, R11). -/
def putChar (c : Byte) (s : State) : State := window { s with out := s.out ++ [c] }

/-- `Print` -/
def print (cs : List Byte) (s : State) : State := cs.foldl (fun t c => putChar c t) s

/-- `NL` (R9, D12) -/
def newline : Byte := 0x0a

/-- `PrintLine` -/
def printLine (cs : List Byte) (s : State) : State := print (cs ++ [newline]) s

/-! ## Lines and bus (R9, R201, R202) -/

/-- Append an event to `DEV`. -/
def emit (e : DevEvent) (s : State) : State := window { s with dev := s.dev ++ [e] }

/-- `Settle`: follows every line and bus event, the last one of a call included (R202). -/
def settle (s : State) : State := emit .settle s

def rstHigh (s : State) : State := settle (emit .rstHigh { s with rst := .high })

def rstLow (s : State) : State := settle (emit .rstLow { s with rst := .low })

def csAssert (k : Fin 4) (s : State) : State :=
  settle (emit (.csAssert k) { s with cs := s.cs.set k true })

def csDeassert (k : Fin 4) (s : State) : State :=
  settle (emit (.csDeassert k) { s with cs := s.cs.set k false })

def ioupHigh (s : State) : State := settle (emit .ioupHigh { s with ioup := .high })

def ioupLow (s : State) : State := settle (emit .ioupLow { s with ioup := .low })

/-- What the devices answer to the n-th shift: the environment's script, and past its end a free
value (R57). -/
def answerAt (answers : List Byte) (n : Nat) : Byte :=
  match answers[n]? with
  | some r => r
  | none => Config.deviceByte n

/-- The byte the next shift captures. -/
def nextAnswer (s : State) : Byte := answerAt s.answers s.draws

/-- The state part of `r <- SpiShift(o)` (R201), with its settle delay; the captured byte is
`nextAnswer s`. -/
def spiShift (o : Byte) (s : State) : State :=
  settle (emit (.shift o (nextAnswer s)) { s with draws := s.draws + 1 })

/-! ## Byte arrays -/

/-- Write bytes into an 8-byte array from element i on; what would fall outside is not written. -/
def putBytes (v : Vector Byte 8) (i : Nat) (bs : List Byte) : Vector Byte 8 :=
  match bs with
  | [] => v
  | b :: rest => putBytes (v.setIfInBounds i b) (i + 1) rest

/-! ## Errors (R230) and the epilogue (R162) -/

/-- The numbers R230 gives the causes. -/
def ErrCause.code (e : ErrCause) : Nat :=
  match e with
  | .malformed => 1
  | .overrun => 2
  | .slot => 3
  | .register => 4
  | .shortWrite => 5
  | .noRead => 6
  | .unimplemented => 7

/-- The line that reports a cause, without its newline; `none` is silent (R230, R174, D12). -/
def ErrCause.report (e : ErrCause) : Option (List Byte) :=
  match e with
  | .malformed => none
  | .overrun => none
  | .slot => some (text ['E', 'R', 'R', ' ', 's', 'l', 'o', 't'])
  | .register => some (text ['E', 'R', 'R', ' ', 'r', 'e', 'g', 'i', 's', 't', 'e', 'r'])
  | .shortWrite => some (text ['E', 'R', 'R', ' ', 'l', 'e', 'n', 'g', 't', 'h'])
  | .noRead => some (text ['E', 'R', 'R', ' ', 'n', 'o', 'r', 'e', 'a', 'd'])
  | .unimplemented =>
    some (text ['U', 'n', 'i', 'm', 'p', 'l', 'e', 'm', 'e', 'n', 't', 'e', 'd'])

/-- `raise` in a dispatcher rule (R9): print the error's line and skip the rest of the command's
device actions. No state is saved, no mode changes, nothing jumps (R243). -/
def raise (e : ErrCause) (s : State) : Host.Outcome State Fault Refusal :=
  match e.report with
  | none => .next s
  | some line => .next (printLine line s)

/-- `ACK` (R6): the acknowledgement text `Done`. -/
def ackText : List Byte := text ['D', 'o', 'n', 'e']

/-- The epilogue (R162): `PrintLine("Done")`, then `OP <- Idle`, the last action of the `Tick`. -/
def epilogue (s : State) : State := clearReady (printLine ackText s)

/-- A command of the dispatcher: its own rule, then always the epilogue (R160, R162). -/
def complete (o : Host.Outcome State Fault Refusal) : Host.Outcome State Fault Refusal :=
  andThen o (fun s => .next (epilogue s))

/-- The slot check (R163): a slot that is not wired is reported and never forwarded. -/
def checkSlot (slot : Fin 8) (s : State) (body : State → Host.Outcome State Fault Refusal) :
    Host.Outcome State Fault Refusal :=
  if slot.val < numSlots then body s else raise .slot s

/-! ## The Transfer Protocol -/

/-- Shift bytes out; what is captured is discarded (R203). -/
def shiftOut (bs : List Byte) (s : State) : State := bs.foldl (fun t o => spiShift o t) s

/-- Shift n zero bytes, capturing them into `RRB[i]`, `RRB[i+1]`, ... (R204). -/
def capture (i n : Nat) (s : State) : State :=
  match n with
  | 0 => s
  | n + 1 =>
    let t := spiShift 0x00 s
    capture (i + 1) n { t with rrb := t.rrb.setIfInBounds i (nextAnswer s) }

/-- The reset strobe (R203, R206, D14). -/
def strobe (s : State) : State := rstLow (rstHigh s)

/-- The events of a write transfer on a wired slot: strobe, chip-select, address byte with the read
bit clear, payload bytes, chip-select released, apply pulse (R203). -/
def writeTransfer (k : Fin 4) (addr : Byte) (data : List Byte) (s : State) : State :=
  ioupLow (ioupHigh (csDeassert k (shiftOut (addr :: data) (csAssert k (strobe s)))))

/-- The events of a read transfer of n bytes on a wired slot: chip-select, address byte with the read
bit set, n zero bytes, chip-select released; no strobe and no apply pulse (R204, conflict C6). -/
def readTransfer (k : Fin 4) (addr : Byte) (n : Nat) (s : State) : State :=
  csDeassert k (capture 0 n (spiShift (addr ||| 0x80) (csAssert k s)))

/-- Two hex digits a byte, one space between bytes (R205). -/
def announceText (bs : List Byte) : List Byte :=
  match bs with
  | [] => []
  | b :: rest =>
    match rest with
    | [] => hex2 b
    | _ :: _ => hex2 b ++ 0x20 :: announceText rest

/-- `Announce(L)` (R205). -/
def announceRead (n : Nat) (s : State) : State := printLine (announceText (s.rrb.toList.take n)) s

/-- `DevWrite(slot, addr, data)` (R203): exactly `REG_LEN(addr)` payload bytes. A call outside the
preconditions of R200 is refused (R209). -/
def devWrite (slot : Fin 8) (addr : Byte) (data : List Byte) (s : State) :
    Host.Outcome State Fault Refusal :=
  if h : slot.val < numSlots then
    if s.cfg.regLen addr = 0 then .refused .transferLength
    else if data.length < s.cfg.regLen addr then .refused .transferData
    else .next (writeTransfer ⟨slot.val, h⟩ addr (data.take (s.cfg.regLen addr)) s)
  else .refused .transferSlot

/-- `DevRead(slot, addr, announce)` (R204). A call outside the preconditions is refused (R209). -/
def devRead (slot : Fin 8) (addr : Byte) (announce : Bool) (s : State) :
    Host.Outcome State Fault Refusal :=
  if h : slot.val < numSlots then
    if s.cfg.regLen addr = 0 then .refused .transferLength
    else
      let t := readTransfer ⟨slot.val, h⟩ addr (s.cfg.regLen addr) s
      .next (if announce then announceRead (s.cfg.regLen addr) t else t)
  else .refused .transferSlot

/-- The slots in increasing order (R206, R167). -/
def allSlots : List (Fin 8) := [0, 1, 2, 3]

/-- Initialisation of the device at one slot (R206). -/
def initDevice (slot : Fin 8) (s : State) : Host.Outcome State Fault Refusal :=
  andThen (devWrite slot s.cfg.addrRefdiv s.cfg.dataRefdiv (strobe s)) fun s =>
    if s.cfg.readCapable then
      andThen (devWrite slot s.cfg.addr3wire s.cfg.data3wire s) fun s =>
        devWrite slot s.cfg.addrAmpctl s.cfg.dataAmpctl s
    else .next s

/-- The devices of a list of slots, one after the other. -/
def initDevices (slots : List (Fin 8)) (s : State) : Host.Outcome State Fault Refusal :=
  match slots with
  | [] => .next s
  | k :: ks => andThen (initDevice k s) (initDevices ks)

/-- `ResetAllDevices()` (R206). -/
def resetAllDevices (s : State) : Host.Outcome State Fault Refusal := initDevices allSlots s

/-! ## Reset (R270) -/

/-- The `Reset` step: every piece of the controller's state at its value of R36; the configuration and
what the environment will do are no state of the controller. -/
def resetStep (s : State) : State :=
  { State.powerOn s.cfg with
    input := s.input, gaps := s.gaps, answers := s.answers, draws := s.draws }

end Sys2Proof.Machine
end

