-- ==== Sys2Proof/Machine/Frame.lean ====
section
/-! DEFINITION. The two frames of the Transfer Protocol as instructions: `SPI_WR` and `SPI_RD`
(30_encoding.md R92, R93; 42_transfer.md R203, R204). -/
namespace Sys2Proof.Machine

/-- `SPI_WR` (R203): `DevWrite` with the address of the frame's first byte. -/
def execSpiWr (slot : Fin 8) (a : RegAddr) (data : List Byte) (s : State) :
    Host.Outcome State Fault Refusal :=
  devWrite slot (a.setWidth 8) data s

/-- `SPI_RD` (R204): `DevRead`. -/
def execSpiRd (slot : Fin 8) (a : RegAddr) (announce : Bool) (s : State) :
    Host.Outcome State Fault Refusal :=
  devRead slot (a.setWidth 8) announce s

end Sys2Proof.Machine
end

