-- ==== Sys2Proof/Machine/Profile.lean ====
section
/-! DEFINITION. The word commands `SETF`, `SETA`, `SETP` (41_dispatcher.md R170 to R172). -/
namespace Sys2Proof.Machine

/-- `BUF` from the device's profile-0 register, read silently, or the default profile without read
capability (R170, R171). -/
def loadProfile (slot : Fin 8) (s : State) : Host.Outcome State Fault Refusal :=
  if s.cfg.readCapable then
    andThen (devRead slot s.cfg.addrProfile0 false s) fun s => .next { s with buf := s.rrb }
  else .next { s with buf := s.cfg.defaultProfile0 }

/-- Overwrite profile bytes from element i on and write the profile back (R170, R171). -/
def storeProfile (slot : Fin 8) (i : Nat) (bytes : List Byte) (s : State) :
    Host.Outcome State Fault Refusal :=
  let s := { s with buf := putBytes s.buf i bytes }
  devWrite slot s.cfg.addrProfile0 s.buf.toList s

/-- `SETF` (R170): the four bytes replace profile bytes 4 to 7, in order of arrival. -/
def execSetf (slot : Fin 8) (f0 f1 f2 f3 : Byte) (s : State) : Host.Outcome State Fault Refusal :=
  complete <| checkSlot slot s fun s =>
    andThen (loadProfile slot s) (storeProfile slot 4 [f0, f1, f2, f3])

/-- `SETA` (R171): the two bytes replace profile bytes 0 and 1. -/
def execSeta (slot : Fin 8) (w0 w1 : Byte) (s : State) : Host.Outcome State Fault Refusal :=
  complete <| checkSlot slot s fun s =>
    andThen (loadProfile slot s) (storeProfile slot 0 [w0, w1])

/-- `SETP` (R172): "parsed but not yet wired to an action"; the operands are unused and no slot check
is made. -/
def execSetp (_slot : Fin 8) (_w0 _w1 : Byte) (s : State) : Host.Outcome State Fault Refusal :=
  complete (raise .unimplemented s)

end Sys2Proof.Machine
end

