-- ==== Sys2Proof/Machine/Register.lean ====
section
/-! DEFINITION. The register access commands `WRREG` and `RDREG` (41_dispatcher.md R168, R169, R173). -/
namespace Sys2Proof.Machine

/-- `BUF[i] <- ...` for the decoded bytes, "up to 8 raw bytes" (R168, R89). -/
def loadBuf (data : List Byte) (s : State) : State := { s with buf := putBytes s.buf 0 (data.take 8) }

/-- `WRREG` (R168): slot, register and length checks in this order (R242 (2)), then the first
`REG_LEN(addr)` bytes of `BUF`. `NLEN` is the number of bytes of the instruction. -/
def execWrreg (slot : Fin 8) (addr : Byte) (data : List Byte) (s : State) :
    Host.Outcome State Fault Refusal :=
  complete <| checkSlot slot s fun s =>
    if s.cfg.regLen addr = 0 then raise .register s
    else if data.length < s.cfg.regLen addr then raise .shortWrite s
    else
      let s := loadBuf data s
      devWrite slot addr (s.buf.toList.take (s.cfg.regLen addr)) s

/-- `RDREG` (R169): slot, register and read-capability checks in this order, then an announced read. -/
def execRdreg (slot : Fin 8) (addr : Byte) (s : State) : Host.Outcome State Fault Refusal :=
  complete <| checkSlot slot s fun s =>
    if s.cfg.regLen addr = 0 then raise .register s
    else if s.cfg.readCapable then devRead slot addr true s
    else raise .noRead s

end Sys2Proof.Machine
end

