-- ==== Sys2Proof/Machine/System.lean ====
section
/-! DEFINITION. The system commands `TEST`, `IDN`, `RESET_ALL`, `PRESENCE` (41_dispatcher.md R164 to
R167). -/
namespace Sys2Proof.Machine

/-- `TEST` (R164): toggle first, then write the new value; a rejected slot does not toggle. -/
def execTest (slot : Fin 8) (s : State) : Host.Outcome State Fault Refusal :=
  complete <| checkSlot slot s fun s =>
    let s := toggleTestBit s
    devWrite slot s.cfg.addrTest (s.cfg.testData s.testBit) s

/-- `IDN` (R165): no device event. -/
def execIdn (s : State) : Host.Outcome State Fault Refusal :=
  complete (.next (printLine s.cfg.idnString s))

/-- `RESET_ALL` (R166): re-initialises the devices, not the controller. -/
def execResetAll (s : State) : Host.Outcome State Fault Refusal := complete (resetAllDevices s)

/-- `"I" ++ char(0x31 + s) ++ " "` (R167). -/
def presenceLabel (slot : Fin 8) : List Byte := [0x49, digitOfSlot slot, 0x20]

/-- The loop of `PRESENCE` over the slots still to probe, with the list made so far (R167);
`PRESENCE_BYTE` is 2 (R6). -/
def probeSlots (slots : List (Fin 8)) (found : List Byte) (s : State) :
    Host.Outcome State Fault Refusal :=
  match slots with
  | [] => .next (printLine found s)
  | k :: ks =>
    andThen (devRead k s.cfg.addrProbe false s) fun s =>
      probeSlots ks (if s.rrb[2] ≠ 0 then found ++ presenceLabel k else found) s

/-- `PRESENCE` (R167). -/
def execPresence (s : State) : Host.Outcome State Fault Refusal :=
  complete (if s.cfg.readCapable then probeSlots allSlots [] s else raise .noRead s)

end Sys2Proof.Machine
end

