-- ==== Sys2Proof/Machine/Dispatch.lean ====
section
/-! DEFINITION. Each instruction to its meaning, one arm per row of opcode_table.json. -/
namespace Sys2Proof.Machine

def exec (i : Instr) (s : State) : Host.Outcome State Fault Refusal :=
  match i with
  | .resetAll => Sys2Proof.Machine.execResetAll s
  | .presence => Sys2Proof.Machine.execPresence s
  | .abort => Sys2Proof.Machine.execAbort s
  | .idn => Sys2Proof.Machine.execIdn s
  | .test slot => Sys2Proof.Machine.execTest slot s
  | .rdreg slot addr => Sys2Proof.Machine.execRdreg slot addr s
  | .wrreg slot addr data => Sys2Proof.Machine.execWrreg slot addr data s
  | .setf slot f0 f1 f2 f3 => Sys2Proof.Machine.execSetf slot f0 f1 f2 f3 s
  | .seta slot w0 w1 => Sys2Proof.Machine.execSeta slot w0 w1 s
  | .setp slot w0 w1 => Sys2Proof.Machine.execSetp slot w0 w1 s
  | .spiWr slot a data => Sys2Proof.Machine.execSpiWr slot a data s
  | .spiRd slot a announce => Sys2Proof.Machine.execSpiRd slot a announce s

end Sys2Proof.Machine
end

