-- ==== Sys2Proof/Machine/Operands.lean ====
section
/-! DEFINITION. The operands of the pending command, assembled from the raw digits of the mailbox
(30_encoding.md R88, R89; 20_memory.md R52 (b)). -/
namespace Sys2Proof.Machine

/-- `addr = HexByte(ADDRC[0], ADDRC[1])` (R89). -/
def mailboxAddr (s : State) : Option Byte := hexByte s.addrc[0] s.addrc[1]

/-- Bytes from pairs of hex digits, in order. -/
def pairBytes (digits : List Byte) : Option (List Byte) :=
  match digits with
  | [] => some []
  | c0 :: cs =>
    match cs with
    | [] => none
    | c1 :: rest =>
      match hexByte c0 c1, pairBytes rest with
      | some v, some vs => some (v :: vs)
      | _, _ => none

/-- The n bytes of `PAY[0 .. 2n-1]` (R89). -/
def mailboxBytes (n : Nat) (s : State) : Option (List Byte) := pairBytes (s.pay.toList.take (2 * n))

/-- The pending command as an instruction: its kind is `OP` (R161), its operands the mailbox fields the
rule of that kind reads. `none` with `OP` = `Idle`, and where a digit is not a hex digit. -/
def mailboxInstr (s : State) : Option Instr :=
  match s.op with
  | .idle => none
  | .test => some (.test s.slot)
  | .identify => some .idn
  | .reset => some .resetAll
  | .checkPresence => some .presence
  | .writeRegister =>
    match mailboxAddr s, mailboxBytes s.nlen.val s with
    | some addr, some data => some (.wrreg s.slot addr data)
    | _, _ => none
  | .readRegister =>
    match mailboxAddr s with
    | some addr => some (.rdreg s.slot addr)
    | none => none
  | .setFrequency =>
    match mailboxBytes 4 s with
    | some [f0, f1, f2, f3] => some (.setf s.slot f0 f1 f2 f3)
    | _ => none
  | .setAmplitude =>
    match mailboxBytes 2 s with
    | some [w0, w1] => some (.seta s.slot w0 w1)
    | _ => none
  | .setPhase =>
    match mailboxBytes 2 s with
    | some [w0, w1] => some (.setp s.slot w0 w1)
    | _ => none

end Sys2Proof.Machine
end

