-- ==== Sys2Proof/Machine/Fetch.lean ====
section
/-! DEFINITION. What the next step does, and where an instruction stands before it runs: a command in
the mailbox, `ABORT` on the input, a frame among the calls of the boot initialisation
(00_scope.md R10, 41_dispatcher.md R160, 70_reset_and_hazards.md R271). -/
namespace Sys2Proof.Machine

/-- What the next step does. -/
inductive Action where
  /-- the `Reset` step (R270) -/
  | powerOn
  /-- an `RxByte` step of the parser (R110) -/
  | parse (b : Byte)
  /-- an instruction runs -/
  | run (i : Instr)
  /-- the strobe of the initialisation sequence (R206) -/
  | strobe
  /-- a poll with nothing pending changes nothing (R160) -/
  | idlePoll
  /-- the pending command stores something that is no hex digit (R88) -/
  | badMailbox
  /-- the awaiting frame is no frame of R91 to R93 -/
  | badFrame (why : Reject)
deriving DecidableEq, Repr

/-- One poll of the dispatcher (R160). -/
def pollAction (s : State) : Action :=
  if s.op = .idle then .idlePoll
  else
    match mailboxInstr s with
    | some i => .run i
    | none => .badMailbox

/-- The write frame of an initialisation register (R92). -/
def initFrame (slot : Fin 8) (addr : Byte) (data : List Byte) : Call := .frame slot (addr :: data) false

/-- The calls that initialise the device at one slot (R206). -/
def initCalls (c : Config) (slot : Fin 8) : List Call :=
  .strobe :: initFrame slot c.addrRefdiv c.dataRefdiv ::
    if c.readCapable then
      [initFrame slot c.addr3wire c.data3wire, initFrame slot c.addrAmpctl c.dataAmpctl]
    else []

/-- The calls of the boot initialisation (R271). -/
def bootCalls (c : Config) : List Call := allSlots.flatMap (initCalls c)

/-- The calls the main loop has to make before its first poll (R271). -/
def pendingCalls (s : State) : List Call :=
  if s.bootDue then bootCalls s.cfg ++ s.calls else s.calls

/-- The action of one call. -/
def callAction (c : Call) : Action :=
  match c with
  | .strobe => .strobe
  | .frame slot bytes announce =>
    match decodeFrame slot announce bytes with
    | .ok i => .run i
    | .error why => .badFrame why

/-- The main loop: the next call of the initialisation, if any; else a poll, which uses up a `Tick`
(R271: the sequence runs "before the first `Tick` step is taken"). `rest` is the input after that
`Tick`. -/
def mainLoop (s : State) (rest : List Event) : Action × State :=
  match pendingCalls s with
  | c :: cs => (callAction c, { s with bootDue := false, calls := cs })
  | [] => (pollAction s, { s with input := rest })

/-- The next step's action, and the state with its event used up. An arrived byte comes before the
main loop's work (R10); with no event left the main loop polls "for ever" (R272). -/
def fetch (s : State) : Action × State :=
  match s.input with
  | [] => mainLoop s []
  | e :: rest =>
    match e with
    | .reset => (.powerOn, { s with input := rest })
    | .rxByte b => (if b = 0x2f then .run .abort else .parse b, { s with input := rest })
    | .tick => mainLoop s rest

/-! ## Placing an instruction (for `State.withFetchWord`) -/

/-- A command's bytes received by a parser that is idle with the gate open, the boot initialisation
out of the way and a `Tick` next: the command then stands in the mailbox and the next step runs it. -/
def placeCommand (bytes : List Byte) (s : State) : State :=
  parseBytes bytes
    { s with pstate := .idle, pos := 0, op := .idle, bootDue := false, calls := [],
             input := .tick :: s.input }

/-- `ABORT` is fetched from the input. -/
def placeAbort (s : State) : State := { s with input := .rxByte 0x2f :: s.input }

/-- A frame is fetched from the calls of the initialisation. -/
def placeFrame (bytes : List Byte) (s : State) : State :=
  { s with bootDue := false, calls := .frame 0 bytes false :: s.calls, input := .tick :: s.input }

/-- Place what `decodeTableWord` reads from the word. -/
def placeWord (nbits w : Nat) (s : State) : State :=
  match decodeTableWord nbits w with
  | some i =>
    if i = .abort then placeAbort s
    else if i.isFrame then placeFrame (tableFrame nbits w) s
    else placeCommand (paddedBytes nbits w) s
  | none => placeCommand (paddedBytes nbits w) s

end Sys2Proof.Machine
end

