-- ==== Sys2Proof/Machine/Step.lean ====
section
/-! DEFINITION. One step of the controller (00_scope.md R10), and the placing of an instruction where
the next step fetches it. -/
namespace Sys2Proof.Machine

/-- The action `fetch` found, on the state with its event used up. -/
def act (a : Action) (s : State) : Host.Outcome State Fault Refusal :=
  match a with
  | .powerOn => .next (resetStep s)
  | .parse b => .next (parserStep b s)
  | .run i => exec i s
  | .strobe => .next (Sys2Proof.Machine.strobe s)
  | .idlePoll => .next s
  | .badMailbox => .fault .undecodableMailbox
  | .badFrame why => .refused (.undecodableFrame why)

/-- One step. -/
def step (s : State) : Host.Outcome State Fault Refusal := act (fetch s).1 (fetch s).2

/-- `s` with the instruction of the opcode table's word placed where the next step fetches it
(notes/assumptions/7.md). -/
def State.withFetchWord (s : State) (nbits w : Nat) : State := placeWord nbits w s

end Sys2Proof.Machine
end

