-- ==== Sys2Proof/Safety.lean ====
section
/-! DEFINITION. The terms claims are made in: the events a transfer leaves on `DEV`, the state a
transfer or a printed line leaves, the discipline of the lines (42_transfer.md R202, R210), the echo
device of 95_test_vectors.md section 0.4, and the invariant of the controller. Nothing here is used by
the machine. -/
namespace Sys2Proof.Machine

/-! ## Events of the transfers -/

/-- A `Settle` after every line and bus event (R202). -/
def spaced (es : List DevEvent) : List DevEvent := es.flatMap (fun e => [e, .settle])

/-- What the devices answer to m shifts from the n-th on (R57). -/
def captured (answers : List Byte) (n m : Nat) : List Byte :=
  match m with
  | 0 => []
  | m + 1 => answerAt answers n :: captured answers (n + 1) m

/-- The events of shifting bytes out while the answers from the n-th on are captured. -/
def shifts (outs : List Byte) (answers : List Byte) (n : Nat) : List DevEvent :=
  List.zipWith DevEvent.shift outs (captured answers n outs.length)

/-- The reset strobe (R206). -/
def strobeEvents : List DevEvent := spaced [.rstHigh, .rstLow]

/-- The events of a write transfer (R203). -/
def writeEvents (k : Fin 4) (addr : Byte) (data answers : List Byte) (n : Nat) : List DevEvent :=
  spaced ([.rstHigh, .rstLow, .csAssert k] ++ shifts (addr :: data) answers n
    ++ [.csDeassert k, .ioupHigh, .ioupLow])

/-- The events of a read transfer of m bytes (R204). -/
def readEvents (k : Fin 4) (addr : Byte) (m : Nat) (answers : List Byte) (n : Nat) :
    List DevEvent :=
  spaced ([.csAssert k] ++ shifts ((addr ||| 0x80) :: List.replicate m 0) answers n
    ++ [.csDeassert k])

/-! ## States after a transfer or a line of text, gaps apart -/

/-- After a complete write transfer: the lines at rest, the events on `DEV`, nothing else (R203). -/
def afterWrite (k : Fin 4) (addr : Byte) (data : List Byte) (s : State) : State :=
  { s with
    rst := .low, ioup := .low, cs := s.cs.set k false,
    dev := s.dev ++ writeEvents k addr data s.answers s.draws,
    draws := s.draws + (data.length + 1) }

/-- After a complete read transfer of m bytes: the chip-select released, the m captured bytes in
`RRB[0 .. m-1]`, the events on `DEV`, nothing else (R204). -/
def afterRead (k : Fin 4) (addr : Byte) (m : Nat) (s : State) : State :=
  { s with
    cs := s.cs.set k false,
    rrb := putBytes s.rrb 0 (captured s.answers (s.draws + 1) m),
    dev := s.dev ++ readEvents k addr m s.answers s.draws,
    draws := s.draws + (m + 1) }

/-- The bytes a read transfer started in `s` captures after the address byte. -/
def readBytes (m : Nat) (s : State) : List Byte := captured s.answers (s.draws + 1) m

/-- After printing a text. -/
def afterText (cs : List Byte) (s : State) : State := { s with out := s.out ++ cs }

/-- A line of output: the text and `NL` (R9). -/
def line (cs : List Byte) : List Byte := cs ++ [newline]

/-- After a read frame: the read transfer of the register's length and, announced, the line of the
captured bytes, two hex digits each, separated by single spaces (R204, R205). -/
def afterReadFrame (k : Fin 4) (addr : Byte) (announce : Bool) (s : State) : State :=
  afterText
    (if announce = true then
      line (List.intercalate [0x20] ((readBytes (s.cfg.regLen addr) s).map hex2))
    else [])
    (afterRead k addr (s.cfg.regLen addr) s)

/-- The acknowledgement line (R162, R174). -/
def doneLine : List Byte := line ackText

/-- After the epilogue: the line `Done`, then `OP` = `Idle` (R162). -/
def afterDone (s : State) : State := { s with out := s.out ++ doneLine, op := .idle }

/-- The outcome is a next state that is `t` but for the bytes still to arrive in gaps, which the
controller does not hold. -/
def NextIs (o : Host.Outcome State Fault Refusal) (t : State) : Prop :=
  ∃ g, o = .next { t with gaps := g }

/-- The state with what the parser writes (R38), and the gaps, blanked: everything a byte that arrives
in a gap cannot touch. -/
def deviceSide (s : State) : State :=
  { s with
    pstate := .idle, pos := 0, op := .idle, slot := 0, addrc := Vector.replicate 2 0, nlen := 0,
    pay := Vector.replicate 18 0, gaps := [] }

/-- n gaps passed: the bytes that arrive in them parsed in order (R242 (3)), and nothing else. -/
def parseGaps (n : Nat) (s : State) : State :=
  { parseBytes (s.gaps.take n).flatten s with gaps := s.gaps.drop n }

/-- The number of gaps between the states before and after some work of the main loop: one after
every device event and every character printed (notes/assumptions/5.md). -/
def gapsBetween (s t : State) : Nat :=
  (t.dev.length - s.dev.length) + (t.out.length - s.out.length)

/-- What becomes of `t`, the effect of some work of the main loop started in `s`, with the bytes that
arrive during that work parsed in order (R10, R242 (3)). With the gate closed, or with no byte in
these gaps, it is `t` with the gaps passed. -/
def interrupted (s t : State) : State := parseGaps (gapsBetween s t) t

/-- The list `PRESENCE` prints: the label of every slot whose third captured byte is not zero, slots
in increasing order (R167). Slot k's probe of m bytes begins with shift k (m + 1). -/
def presentText (m : Nat) (s : State) : List Byte :=
  [0, 1, 2, 3].flatMap fun k : Nat =>
    if answerAt s.answers (s.draws + k * (m + 1) + 3) ≠ 0 then
      [0x49, BitVec.ofNat 8 (0x31 + k), 0x20]
    else []

/-- The reset values R36 gives (all of its table but `RRB` and `BUF`, which it leaves unspecified). -/
structure ResetValues (s : State) : Prop where
  pstate : s.pstate = .idle
  pos : s.pos = 0
  op : s.op = .idle
  slot : s.slot = 0
  addrc : s.addrc.toList = [0x30, 0x30]
  nlen : s.nlen = 0
  pay : s.pay = Vector.replicate 18 0
  testBit : s.testBit = false
  rst : s.rst = .low
  ioup : s.ioup = .low
  cs : s.cs = Vector.replicate 4 false
  out : s.out = []
  dev : s.dev = []

/-- After the strobe of the initialisation sequence (R206). -/
def afterStrobe (s : State) : State :=
  { s with rst := .low, dev := s.dev ++ strobeEvents }

/-- After the initialisation of the device at one slot (R206). -/
def afterInit (k : Fin 4) (s : State) : State :=
  let t := afterWrite k s.cfg.addrRefdiv s.cfg.dataRefdiv (afterStrobe s)
  if s.cfg.readCapable then
    afterWrite k s.cfg.addrAmpctl s.cfg.dataAmpctl
      (afterWrite k s.cfg.addr3wire s.cfg.data3wire t)
  else t

/-- After the initialisation of every device, slots in increasing order (R206). -/
def afterInitAll (s : State) : State :=
  afterInit 3 (afterInit 2 (afterInit 1 (afterInit 0 s)))

/-- The device events of a trace with what was captured left out: the `_` of the discarded bytes
(R203, R207). -/
def DevEvent.sent (e : DevEvent) : DevEvent :=
  match e with
  | .shift o _ => .shift o 0
  | .rstHigh => .rstHigh
  | .rstLow => .rstLow
  | .csAssert k => .csAssert k
  | .csDeassert k => .csDeassert k
  | .ioupHigh => .ioupHigh
  | .ioupLow => .ioupLow
  | .settle => .settle

/-! ## The discipline of the lines (R202, R210) -/

/-- The lines as the trace drives them: levels, and the slot whose chip-select is asserted. -/
structure BusView where
  rst : Level
  ioup : Level
  sel : Option (Fin 4)
deriving DecidableEq, Repr

/-- Every line at rest (R210). -/
def BusView.rest : BusView := { rst := .low, ioup := .low, sel := none }

/-- The lines after an event, `none` where R210 forbids the event: a strobe or a pulse may not begin
while another line is active, at most one chip-select is asserted, and bytes are shifted only while
exactly one is. -/
def busStep (v : BusView) (e : DevEvent) : Option BusView :=
  match e with
  | .settle => some v
  | .rstHigh => if v = .rest then some { rst := .high, ioup := .low, sel := none } else none
  | .rstLow => if v = { rst := .high, ioup := .low, sel := none } then some .rest else none
  | .csAssert k => if v = .rest then some { rst := .low, ioup := .low, sel := some k } else none
  | .csDeassert k => if v = { rst := .low, ioup := .low, sel := some k } then some .rest else none
  | .shift _ _ => if v.sel.isSome ∧ v.rst = .low ∧ v.ioup = .low then some v else none
  | .ioupHigh => if v = .rest then some { rst := .low, ioup := .high, sel := none } else none
  | .ioupLow => if v = { rst := .low, ioup := .high, sel := none } then some .rest else none

/-- The lines after a trace. -/
def busRun (es : List DevEvent) (v : BusView) : Option BusView :=
  match es with
  | [] => some v
  | e :: rest =>
    match busStep v e with
    | some w => busRun rest w
    | none => none

/-- Every line or bus event is followed by exactly one `Settle` (R202). -/
def isSpaced : List DevEvent → Bool
  | [] => true
  | [_] => false
  | e :: d :: rest => decide (e ≠ .settle) && decide (d = .settle) && isSpaced rest

/-! ## The echo device of 95_test_vectors.md section 0.4 -/

/-- A present `STUB`: what it holds for each address, and the frame it is receiving. -/
structure Stub where
  reg : Byte → List Byte
  selected : Bool
  first : Option Byte
  shadow : List Byte

/-- The `STUB` at slot k sees an event; `len` is `REG_LEN`. -/
def Stub.see (k : Fin 4) (len : Byte → Nat) (d : Stub) (e : DevEvent) : Stub :=
  match e with
  | .csAssert j => if j = k then { d with selected := true, first := none, shadow := [] } else d
  | .csDeassert j => if j = k then { d with selected := false } else d
  | .shift o _ =>
    if d.selected then
      match d.first with
      | none => { d with first := some o }
      | some a =>
        if a.getLsbD 7 = false ∧ d.shadow.length < len a then { d with shadow := d.shadow ++ [o] }
        else d
    else d
  | .ioupHigh =>
    match d.first with
    | some a =>
      if d.shadow = [] then d
      else { d with reg := fun x => if x = a then d.shadow else d.reg x, first := none, shadow := [] }
    | none => d
  | .rstHigh => d
  | .rstLow => d
  | .ioupLow => d
  | .settle => d

/-- The `STUB` at slot k after a trace. -/
def Stub.run (k : Fin 4) (len : Byte → Nat) (d : Stub) (es : List DevEvent) : Stub :=
  es.foldl (fun d e => Stub.see k len d e) d

/-! ## The invariant -/

/-- The first n elements of `PAY` are hex digits (R25, R27, R88). -/
def HexPay (s : State) (n : Nat) : Prop := ∀ j (h : j < 18), j < n → isHex s.pay[j] = true

/-- The bounds of `POS` (R22, R99), and the digits stored so far. -/
def PosOk (s : State) : Prop :=
  match s.pstate with
  | .idle => True
  | .readingIndex => s.pos ≤ 1
  | .readingRegisterAddress => s.pos ≤ 2
  | .readingDataLength => s.pos ≤ 1 ∧ (s.pos = 1 → 1 ≤ s.nlen.val)
  | .readingData => 1 ≤ s.nlen.val ∧ s.pos < 2 * s.nlen.val ∧ HexPay s s.pos
  | .readingFrequency => s.pos < 8 ∧ HexPay s s.pos
  | .readingAmplitude => s.pos < 4 ∧ HexPay s s.pos
  | .readingPhase => s.pos < 4 ∧ HexPay s s.pos
  | .readingIdn => 1 ≤ s.pos ∧ s.pos ≤ 4

/-- A pending command is complete: every digit its kind needs is a hex digit (R61, R138). -/
def PendingOk (s : State) : Prop :=
  match s.op with
  | .writeRegister => 1 ≤ s.nlen.val ∧ HexPay s (2 * s.nlen.val)
  | .setFrequency => HexPay s 8
  | .setAmplitude => HexPay s 4
  | .setPhase => HexPay s 4
  | .idle => True
  | .test => True
  | .identify => True
  | .reset => True
  | .checkPresence => True
  | .readRegister => True

/-- The parser's part of the invariant. -/
structure ParserInv (s : State) : Prop where
  /-- the parser is idle while a command is pending (R111 corner case 1) -/
  gate : s.op ≠ .idle → s.pstate = .idle
  /-- `ADDRC` always holds hex digits (R25, R36) -/
  addrHex : isHex s.addrc[0] = true ∧ isHex s.addrc[1] = true
  /-- `NLEN` is 0 .. 9 (R26) -/
  count : s.nlen.val ≤ 9
  /-- `POS` is 0 .. 18 (R22) -/
  posBound : s.pos ≤ 18
  pos : PosOk s
  pending : PendingOk s

/-- The lines between two steps, and the whole trace (R202, R210). -/
structure BusInv (s : State) : Prop where
  rst : s.rst = .low
  ioup : s.ioup = .low
  cs : s.cs = Vector.replicate 4 false
  trace : busRun s.dev .rest = some .rest
  settled : isSpaced s.dev = true

/-- A transfer that meets the preconditions of R200. -/
def TransferOk (c : Config) (i : Instr) : Prop :=
  match i with
  | .spiWr slot a data =>
    slot.val < numSlots ∧ 0 < c.regLen (a.setWidth 8) ∧ c.regLen (a.setWidth 8) ≤ data.length
  | .spiRd slot a _ => slot.val < numSlots ∧ 0 < c.regLen (a.setWidth 8)
  | .resetAll => False
  | .presence => False
  | .abort => False
  | .idn => False
  | .test _ => False
  | .rdreg _ _ => False
  | .wrreg _ _ _ => False
  | .setf _ _ _ _ _ => False
  | .seta _ _ _ => False
  | .setp _ _ _ => False

/-- An awaiting call is a strobe or a frame the Transfer Protocol accepts (R206, R200). -/
def CallOk (c : Config) (call : Call) : Prop :=
  match call with
  | .strobe => True
  | .frame slot bytes announce =>
    ∃ i, decodeFrame slot announce bytes = .ok i ∧ TransferOk c i

/-- The invariant of the controller between two steps. -/
structure Inv (s : State) : Prop where
  cfg : s.cfg.Valid
  parser : ParserInv s
  bus : BusInv s
  calls : ∀ c ∈ s.calls, CallOk s.cfg c

end Sys2Proof.Machine
end

