-- ==== Sys2Proof/Certificates/Slice0/Obligations.lean ====
section
/-! DEFINITION. The statements for the provers, from the numbered rules of spec/. A statement that
rests on a decision of 92_eei_decisions.md or on an entry of notes/assumptions says so; the premise
`Config.Valid` is R8, whose clauses (b), (e), (f) are the spec's own (decisions D22, D23). The terms
(`afterWrite`, `NextIs`, `Inv`, ...) are those of Safety.lean. -/

open Sys2Proof
open Sys2Proof.Machine

/-! ## Reset and the traces -/

/-- R36, R270: after power-on, and after the `Reset` step from any state, every piece of state R36
gives a value has it; the configuration stays. The values but `OP` are the spec's own decision D20.
`RRB` and `BUF` are not stated (notes/assumptions/2.md). -/
def Obligations.ResetGivesTheTableOfResetValues : Prop :=
  (∀ c : Config, ResetValues (State.powerOn c)) ∧
  ∀ (s : State) (rest : List Event), s.input = .reset :: rest →
    ∃ t, step s = .next t ∧ ResetValues t ∧ t.cfg = s.cfg ∧ t.input = rest

/-- The invariant of Safety.lean holds after power-on with every configuration that meets R8, and at
the reset state, whose configuration is the model's choice (notes/assumptions/1.md). -/
def Obligations.InvHoldsAfterPowerOn : Prop :=
  Inv State.reset ∧ ∀ c : Config, c.Valid → Inv (State.powerOn c)

/-- R33: `OUT` and `DEV` are empty after power-on and after every `Reset` step, and every other step
that goes on only appends to them. -/
def Obligations.OutAndDevStartEmptyAndOnlyGrow : Prop :=
  (∀ c : Config, (State.powerOn c).out = [] ∧ (State.powerOn c).dev = []) ∧
  (∀ s t : State, step s = .next t → s.input.head? = some .reset → t.out = [] ∧ t.dev = []) ∧
  ∀ s t : State, step s = .next t → s.input.head? ≠ some .reset →
    ∃ printed events, t.out = s.out ++ printed ∧ t.dev = s.dev ++ events

/-! ## The step -/

/-- R160, R161: with the boot sequence over and no byte arrived, a `Tick` runs the instruction the
mailbox holds: the step is `exec` of it, with the `Tick` used up. -/
def Obligations.TickRunsThePendingCommand : Prop :=
  ∀ (s : State) (i : Instr), pendingCalls s = [] → mailboxInstr s = some i →
    (s.input = [] → step s = exec i s) ∧
    ∀ rest, s.input = .tick :: rest → step s = exec i { s with input := rest }

/-- R10, R110, R112, R271: an arrived byte is one transition of the parser, `/` is `exec` of `ABORT`,
and an awaiting call of the boot sequence runs before any poll: a frame is `exec` of the frame it
decodes to. The order of bytes and calls is data of the state (notes/assumptions/4.md and 6.md). -/
def Obligations.StepRunsBytesAndAwaitingFrames : Prop :=
  (∀ (s : State) (rest : List Event) (b : Byte), s.input = .rxByte b :: rest → b ≠ 0x2f →
    step s = .next (parserStep b { s with input := rest })) ∧
  (∀ (s : State) (rest : List Event), s.input = .rxByte 0x2f :: rest →
    step s = exec .abort { s with input := rest }) ∧
  (∀ (s : State) (slot : Fin 8) (bytes : List Byte) (announce : Bool) (i : Instr)
      (cs : List Call), (s.input = [] ∨ ∃ rest, s.input = .tick :: rest) →
    pendingCalls s = .frame slot bytes announce :: cs → decodeFrame slot announce bytes = .ok i →
    step s = exec i { s with bootDue := false, calls := cs }) ∧
  ∀ (s : State) (cs : List Call), (s.input = [] ∨ ∃ rest, s.input = .tick :: rest) →
    pendingCalls s = .strobe :: cs →
    step s = .next (strobe { s with bootDue := false, calls := cs })

/-- R160: a poll with nothing pending changes nothing at all (decision D28). -/
def Obligations.IdlePollChangesNothing : Prop :=
  ∀ s : State, pendingCalls s = [] → s.op = .idle →
    (s.input = [] → step s = .next s) ∧
    ∀ rest, s.input = .tick :: rest → step s = .next { s with input := rest }

/-! ## Encoding -/

/-- R82 to R87, R92, R93: words written out from the encodings decode to what they stand for. -/
def Obligations.WordsOfTheSpecDecode : Prop :=
  decodeTableWord 8 0x58 = some .resetAll ∧
  decodeTableWord 8 0x3f = some .presence ∧
  decodeTableWord 8 0x2f = some .abort ∧
  decodeTableWord 40 0x3f4e44492a = some .idn ∧
  decodeTableWord 24 0x543249 = some (.test 1) ∧
  decodeTableWord 48 0x0a3530523149 = some (.rdreg 0 0x05) ∧
  decodeTableWord 96 0x62326131_44324c65_30523349 = some (.wrreg 2 0x0e [0x1a, 0x2b]) ∧
  decodeTableWord 88 0x6430633062306130463149 = some (.setf 0 0x0a 0x0b 0x0c 0x0d) ∧
  decodeTableWord 56 0x66666633413449 = some (.seta 3 0x3f 0xff) ∧
  decodeTableWord 56 0x34333231503149 = some (.setp 0 0x12 0x34) ∧
  decodeFrame 2 false [0x0e, 0x1a, 0x2b] = .ok (.spiWr 2 0x0e [0x1a, 0x2b]) ∧
  decodeFrame 0 true [0x85, 0x00, 0x00] = .ok (.spiRd 0 0x05 true)

/-- R82 to R87: every well-formed command, with every operand, decodes from its encoding, whatever
bytes follow. -/
def Obligations.CommandsDecodeFromTheirEncoding : Prop :=
  ∀ (i : Instr) (rest : List Byte), i.wellFormed = true → i.isFrame = false →
    decodeCommand (encode i ++ rest) = .ok (i, rest)

/-- R91 to R93: every well-formed frame decodes from its encoding, a read frame with any number of the
zero bytes that follow its address byte. The slot and the announce flag come with the call
(notes/assumptions/9.md). -/
def Obligations.FramesDecodeFromTheirEncoding : Prop :=
  (∀ (slot : Fin 8) (a : RegAddr) (data : List Byte) (announce : Bool),
    (Instr.spiWr slot a data).wellFormed = true →
    decodeFrame slot announce (encode (.spiWr slot a data)) = .ok (.spiWr slot a data)) ∧
  ∀ (slot : Fin 8) (a : RegAddr) (announce : Bool) (n : Nat),
    (Instr.spiRd slot a announce).wellFormed = true →
    decodeFrame slot announce (encode (.spiRd slot a announce) ++ List.replicate n 0) =
      .ok (.spiRd slot a announce)

/-- R81: what decodes is what the encodings spell. The bytes read are the encoding of the instruction,
except that a read may end in any byte but `L` and `/` (the encoder's line feed is the model's choice,
notes/assumptions/8.md), and the instruction is well-formed. -/
def Obligations.DecodedBytesAreTheEncoding : Prop :=
  ∀ (bs rest : List Byte) (i : Instr), decodeCommand bs = .ok (i, rest) →
    i.wellFormed = true ∧ i.isFrame = false ∧
    ((∀ slot addr, i ≠ .rdreg slot addr) → bs = encode i ++ rest) ∧
    ∀ slot addr, i = .rdreg slot addr →
      ∃ t : Byte, t ≠ 0x4c ∧ t ≠ 0x2f ∧
        bs = [0x49, BitVec.ofNat 8 (0x31 + slot.val), 0x52] ++ hex2 addr ++ t :: rest

/-- R88, R174: a byte is its two lowercase hex digits; uppercase letters are no hex digits (decision
D33). -/
def Obligations.HexDigitsRoundTrip : Prop :=
  (∀ v : Byte, ∃ c0 c1, hex2 v = [c0, c1] ∧ isHex c0 = true ∧ isHex c1 = true ∧
    hexByte c0 c1 = some v) ∧
  (∀ c : Byte, isHex c = true ↔ (hexVal c).isSome = true) ∧
  (∀ c : Byte, 0x41 ≤ c.toNat → c.toNat ≤ 0x5a → isHex c = false)

/-! ## The parser -/

/-- R111: while a command is pending, a step that delivers a byte, `/` included, leaves everything as
it was; the byte is gone. -/
def Obligations.ClosedGateDropsEveryByte : Prop :=
  ∀ (s : State) (rest : List Event) (b : Byte), s.op ≠ .idle → s.input = .rxByte b :: rest →
    step s = .next { s with input := rest }

/-- R38, R110: a step that delivers a byte always answers a next state, and touches nothing of the
main loop's: not the read result, not the lines, not the traces, not the scripted gaps. -/
def Obligations.ParserWritesOnlyItsOwnFields : Prop :=
  ∀ (s : State) (rest : List Event) (b : Byte), s.input = .rxByte b :: rest →
    ∃ t, step s = .next t ∧ t.gaps = s.gaps ∧ deviceSide t = deviceSide { s with input := rest }

/-- R112: `/` at any parser state returns to `Idle`, position 0, and writes nothing else; it cannot
cancel a command that has resolved. -/
def Obligations.AbortReturnsTheParserToIdle : Prop :=
  ∀ s : State,
    (s.op = .idle →
      exec .abort s = .next { s with pstate := .idle, pos := 0 } ∧
      parserStep 0x2f s = { s with pstate := .idle, pos := 0 }) ∧
    (s.op ≠ .idle → exec .abort s = .next s)

/-- R113, R114, R115: `I` starts an indexed command, `X` resolves the full reset and `?` the presence
check at once. -/
def Obligations.IdleStartsIndexedAndResolvesSingleCharacters : Prop :=
  ∀ s : State, s.op = .idle → s.pstate = .idle →
    parserStep 0x49 s = { s with pstate := .readingIndex, pos := 0 } ∧
    parserStep 0x58 s = { s with op := .reset } ∧
    parserStep 0x3f s = { s with op := .checkPresence }

/-- R116, R117, R125: the `*IDN?` token, one character a step, abandoned at the first mismatch; any
other byte in `Idle` is ignored (decisions D3, D6). -/
def Obligations.IdnTokenIsMatchedCharacterByCharacter : Prop :=
  ∀ s : State, s.op = .idle →
    (s.pstate = .idle →
      parserStep 0x2a s = { s with pstate := .readingIdn, pos := 1 } ∧
      ∀ b : Byte, b ≠ 0x49 → b ≠ 0x58 → b ≠ 0x3f → b ≠ 0x2a → b ≠ 0x2f → parserStep b s = s) ∧
    (s.pstate = .readingIdn →
      (s.pos = 1 → parserStep 0x49 s = { s with pos := 2 }) ∧
      (s.pos = 2 → parserStep 0x44 s = { s with pos := 3 }) ∧
      (s.pos = 3 → parserStep 0x4e s = { s with pos := 4 }) ∧
      (s.pos = 4 → parserStep 0x3f s = { s with op := .identify, pstate := .idle }) ∧
      ∀ b e : Byte, b ≠ 0x2f → b ≠ e →
        (s.pos, e) ∈ [(1, (0x49 : Byte)), (2, 0x44), (3, 0x4e), (4, 0x3f)] →
        parserStep b s = { s with pstate := .idle })

/-- R118, R119, R120, R131: the slot digit, `T` resolves a test, `R F A P` select a format, anything
else is malformed. -/
def Obligations.IndexStateFollowsItsRows : Prop :=
  ∀ s : State, s.op = .idle → s.pstate = .readingIndex →
    (s.pos = 0 → ∀ k : Fin 8,
      parserStep (BitVec.ofNat 8 (0x31 + k.val)) s = { s with slot := k, pos := 1 }) ∧
    (s.pos = 0 → ∀ b : Byte, b ≠ 0x2f → (b.toNat < 0x31 ∨ 0x38 < b.toNat) →
      parserStep b s = { s with pstate := .idle }) ∧
    (s.pos = 1 →
      parserStep 0x54 s = { s with op := .test, pstate := .idle } ∧
      parserStep 0x52 s = { s with pstate := .readingRegisterAddress, pos := 0 } ∧
      parserStep 0x46 s = { s with pstate := .readingFrequency, pos := 0 } ∧
      parserStep 0x41 s = { s with pstate := .readingAmplitude, pos := 0 } ∧
      parserStep 0x50 s = { s with pstate := .readingPhase, pos := 0 } ∧
      ∀ b : Byte, b ∉ [(0x2f : Byte), 0x54, 0x52, 0x46, 0x41, 0x50] →
        parserStep b s = { s with pstate := .idle })

/-- R121, R122: two hex digits of the address, then `L` for a write. -/
def Obligations.AddressDigitsAreStoredAndLContinues : Prop :=
  ∀ s : State, s.op = .idle → s.pstate = .readingRegisterAddress →
    (∀ (p : Nat) (h : p < 2) (b : Byte), s.pos = p → isHex b = true →
      parserStep b s = { s with addrc := s.addrc.set p b, pos := p + 1 }) ∧
    (s.pos = 2 → parserStep 0x4c s = { s with pstate := .readingDataLength, pos := 0 })

/-- R123, R124: with two digits collected any byte but `L` and `/` ends a read and is discarded
(decision D7); before that a byte that is no hex digit drops the command (decision D4). -/
def Obligations.AnyTerminatorResolvesARead : Prop :=
  ∀ (s : State) (b : Byte), s.op = .idle → s.pstate = .readingRegisterAddress → b ≠ 0x2f →
    (s.pos = 2 → b ≠ 0x4c →
      parserStep b s = { s with op := .readRegister, pstate := .idle }) ∧
    (s.pos < 2 → isHex b = false → parserStep b s = { s with pstate := .idle })

/-- R126, R127, R128: the count digit `1` to `9`, then `D`; anything else drops the command. -/
def Obligations.LengthStateFollowsItsRows : Prop :=
  ∀ s : State, s.op = .idle → s.pstate = .readingDataLength →
    (s.pos = 0 → ∀ n : Fin 16, 1 ≤ n.val → n.val ≤ 9 →
      parserStep (BitVec.ofNat 8 (0x30 + n.val)) s = { s with nlen := n, pos := 1 }) ∧
    (s.pos = 0 → ∀ b : Byte, b ≠ 0x2f → (b.toNat < 0x31 ∨ 0x39 < b.toNat) →
      parserStep b s = { s with pstate := .idle }) ∧
    (s.pos = 1 → parserStep 0x44 s = { s with pstate := .readingData, pos := 0 }) ∧
    (s.pos = 1 → ∀ b : Byte, b ≠ 0x2f → b ≠ 0x44 → parserStep b s = { s with pstate := .idle })

/-- R129, R130, R132, R134, R136: a hex digit is stored in `PAY[POS]`; the last one the count or the
word needs resolves the command; a byte that is no hex digit drops a write. -/
def Obligations.PayloadDigitsAreStoredAndTheLastResolves : Prop :=
  ∀ (s : State) (b : Byte) (bound : Nat) (k : Kind) (p : Nat) (hp : p < 18), s.op = .idle →
    s.pos = p → p < bound →
    (s.pstate = .readingData ∧ bound = 2 * s.nlen.val ∧ k = .writeRegister ∨
     s.pstate = .readingFrequency ∧ bound = 8 ∧ k = .setFrequency ∨
     s.pstate = .readingAmplitude ∧ bound = 4 ∧ k = .setAmplitude ∨
     s.pstate = .readingPhase ∧ bound = 4 ∧ k = .setPhase) →
    (isHex b = true → p + 1 < bound →
      parserStep b s = { s with pay := s.pay.set p b, pos := p + 1 }) ∧
    (isHex b = true → p + 1 = bound →
      parserStep b s = { s with pay := s.pay.set p b, pos := p + 1, op := k, pstate := .idle }) ∧
    (s.pstate = .readingData → isHex b = false → b ≠ 0x2f →
      parserStep b s = { s with pstate := .idle })

/-- R133, R135, R137: a byte that is no hex digit inside a frequency, amplitude or phase word drops
the command (decision D5). -/
def Obligations.NonHexByteDropsAWordCommand : Prop :=
  ∀ (s : State) (b : Byte), s.op = .idle →
    (s.pstate = .readingFrequency ∨ s.pstate = .readingAmplitude ∨ s.pstate = .readingPhase) →
    isHex b = false → b ≠ 0x2f → parserStep b s = { s with pstate := .idle }

/-- R138, R139 (3): the parser and the decoder agree. From `Idle` with the gate open, bytes that begin
with a complete command leave exactly that command pending, whatever follows it; bytes that are only
the beginning of one leave nothing pending. `ABORT` leaves nothing pending (R112). What ends or drops
a command is in part decided by the spec itself (decisions D3 to D7). -/
def Obligations.ParserAgreesWithTheDecoder : Prop :=
  ∀ (s : State) (bs : List Byte), s.op = .idle → s.pstate = .idle →
    (∀ i rest, decodeCommand bs = .ok (i, rest) → i ≠ .abort →
      mailboxInstr (parseBytes bs s) = some i ∧ (parseBytes bs s).pstate = .idle) ∧
    (decodeCommand bs = .error .truncated → (parseBytes bs s).op = .idle)

/-- R61, R138: whatever the invariant allows, a pending command is complete: the mailbox holds a
well-formed instruction that is a command of the dispatcher. -/
def Obligations.PendingCommandIsComplete : Prop :=
  ∀ s : State, ParserInv s → s.op ≠ .idle →
    ∃ i, mailboxInstr s = some i ∧ i.wellFormed = true ∧ i.isFrame = false ∧ i ≠ .abort

/-- R61, R63 (3), R160: a command delivered byte by byte to an idle controller whose boot sequence is
over is the one the next `Tick` runs, and its bytes touch nothing else on the way. (That no byte of
another command comes in between is the hypothesis on the coming events.) -/
def Obligations.DeliveredCommandIsExecuted : Prop :=
  ∀ (s : State) (i : Instr) (rest : List Event), i.wellFormed = true → i.isFrame = false →
    i ≠ .abort → s.op = .idle → s.pstate = .idle → pendingCalls s = [] →
    s.input = (encode i).map Event.rxByte ++ .tick :: rest →
    ∃ u, Sys2Proof.core.run (encode i).length s = .next u ∧ u.input = .tick :: rest ∧
      u.gaps = s.gaps ∧ deviceSide u = deviceSide { s with input := .tick :: rest } ∧
      step u = exec i { u with input := rest }

/-! ## The commands -/

/-- R164: `TEST` on a wired slot toggles the bit, writes the new value's data to the Test register and
acknowledges; the next state is exactly that (toggle first: decision D25). -/
def Obligations.TestTogglesThenWritesTheTestRegister : Prop :=
  ∀ (s : State) (slot : Fin 8) (h : slot.val < 4), s.cfg.Valid → s.op ≠ .idle →
    NextIs (exec (.test slot) s)
      (afterDone (afterWrite ⟨slot.val, h⟩ s.cfg.addrTest (s.cfg.testData (!s.testBit))
        { s with testBit := !s.testBit }))

/-- R165: `IDN` prints the identification string and `Done` and changes nothing else. -/
def Obligations.IdnPrintsTheIdentification : Prop :=
  ∀ s : State, s.op ≠ .idle →
    NextIs (exec .idn s) (afterDone (afterText (line s.cfg.idnString) s))

/-- R166, R206: `RESET_ALL` initialises every slot in increasing order (strobe, one write, two more
with read capability) and acknowledges; it leaves the controller's own state alone (decisions D31,
D32). -/
def Obligations.ResetAllInitialisesEverySlot : Prop :=
  ∀ s : State, s.cfg.Valid → s.op ≠ .idle →
    NextIs (exec .resetAll s) (afterDone (afterInitAll s))

/-- R167: with read capability `PRESENCE` probes the four slots in order with silent reads, prints the
labels of those whose third captured byte is not zero, and acknowledges (decision D26). -/
def Obligations.PresenceListsTheSlotsThatAnswer : Prop :=
  ∀ s : State, s.cfg.Valid → s.op ≠ .idle → s.cfg.readCapable = true →
    NextIs (exec .presence s)
      (afterDone (afterText (line (presentText (s.cfg.regLen s.cfg.addrProbe) s))
        (afterRead 3 s.cfg.addrProbe (s.cfg.regLen s.cfg.addrProbe)
          (afterRead 2 s.cfg.addrProbe (s.cfg.regLen s.cfg.addrProbe)
            (afterRead 1 s.cfg.addrProbe (s.cfg.regLen s.cfg.addrProbe)
              (afterRead 0 s.cfg.addrProbe (s.cfg.regLen s.cfg.addrProbe) s))))))

/-- R168: `WRREG` with at least as many bytes as the register holds shifts exactly the first
`REG_LEN(addr)` of them; the rest are ignored, and at most eight reach `BUF` (decision D10). -/
def Obligations.WrregWritesTheFirstBytesTyped : Prop :=
  ∀ (s : State) (slot : Fin 8) (h : slot.val < 4) (addr : Byte) (data : List Byte), s.op ≠ .idle →
    0 < s.cfg.regLen addr → s.cfg.regLen addr ≤ data.length →
    NextIs (exec (.wrreg slot addr data) s)
      (afterDone (afterWrite ⟨slot.val, h⟩ addr (data.take (s.cfg.regLen addr))
        { s with buf := putBytes s.buf 0 (data.take 8) }))

/-- R169, R205: `RDREG` reads the register and prints the captured bytes, two lowercase hex digits
each, separated by single spaces (decision D12). -/
def Obligations.RdregPrintsTheCapturedBytes : Prop :=
  ∀ (s : State) (slot : Fin 8) (h : slot.val < 4) (addr : Byte), s.op ≠ .idle →
    0 < s.cfg.regLen addr → s.cfg.readCapable = true →
    NextIs (exec (.rdreg slot addr) s)
      (afterDone (afterText
        (line (List.intercalate [0x20] ((readBytes (s.cfg.regLen addr) s).map hex2)))
        (afterRead ⟨slot.val, h⟩ addr (s.cfg.regLen addr) s)))

/-- R170: `SETF` keeps bytes 0 to 3 of the profile (as read back, or the default without read
capability), puts the four typed bytes in 4 to 7, in order (decision D24), and writes all eight. -/
def Obligations.SetfKeepsTheFirstFourBytes : Prop :=
  ∀ (s : State) (slot : Fin 8) (h : slot.val < 4) (f0 f1 f2 f3 : Byte), s.cfg.Valid →
    s.op ≠ .idle →
    (s.cfg.readCapable = true →
      NextIs (exec (.setf slot f0 f1 f2 f3) s)
        (afterDone (afterWrite ⟨slot.val, h⟩ s.cfg.addrProfile0
          ((readBytes 8 s).take 4 ++ [f0, f1, f2, f3])
          { afterRead ⟨slot.val, h⟩ s.cfg.addrProfile0 8 s with
            buf := putBytes s.buf 0 ((readBytes 8 s).take 4 ++ [f0, f1, f2, f3]) }))) ∧
    (s.cfg.readCapable = false →
      NextIs (exec (.setf slot f0 f1 f2 f3) s)
        (afterDone (afterWrite ⟨slot.val, h⟩ s.cfg.addrProfile0
          (s.cfg.defaultProfile0.toList.take 4 ++ [f0, f1, f2, f3])
          { s with
            buf := putBytes s.buf 0 (s.cfg.defaultProfile0.toList.take 4 ++ [f0, f1, f2, f3]) })))

/-- R171: `SETA` puts the two typed bytes in 0 and 1, keeps bytes 2 to 7 of the profile, and writes all
eight. -/
def Obligations.SetaKeepsTheLastSixBytes : Prop :=
  ∀ (s : State) (slot : Fin 8) (h : slot.val < 4) (w0 w1 : Byte), s.cfg.Valid → s.op ≠ .idle →
    (s.cfg.readCapable = true →
      NextIs (exec (.seta slot w0 w1) s)
        (afterDone (afterWrite ⟨slot.val, h⟩ s.cfg.addrProfile0
          ([w0, w1] ++ (readBytes 8 s).drop 2)
          { afterRead ⟨slot.val, h⟩ s.cfg.addrProfile0 8 s with
            buf := putBytes s.buf 0 ([w0, w1] ++ (readBytes 8 s).drop 2) }))) ∧
    (s.cfg.readCapable = false →
      NextIs (exec (.seta slot w0 w1) s)
        (afterDone (afterWrite ⟨slot.val, h⟩ s.cfg.addrProfile0
          ([w0, w1] ++ s.cfg.defaultProfile0.toList.drop 2)
          { s with buf := putBytes s.buf 0 ([w0, w1] ++ s.cfg.defaultProfile0.toList.drop 2) })))

/-- R172, R237: `SETP` on any slot digit, wired or not, prints `Unimplemented` and `Done`, touches no
device and changes nothing else (decisions D12, D37). -/
def Obligations.SetpReportsUnimplemented : Prop :=
  ∀ (s : State) (slot : Fin 8) (w0 w1 : Byte), s.op ≠ .idle →
    NextIs (exec (.setp slot w0 w1) s)
      (afterDone (afterText
        (line (text ['U', 'n', 'i', 'm', 'p', 'l', 'e', 'm', 'e', 'n', 't', 'e', 'd'])) s))

/-- R163, R233, R242 (2): the five commands that address a device report a slot that is not wired,
whatever else is wrong with them, and change nothing but the transcript: no device event, no toggle
(the text is decision D12). -/
def Obligations.UnwiredSlotIsReportedAndNotForwarded : Prop :=
  ∀ (s : State) (slot : Fin 8) (i : Instr), s.op ≠ .idle → 4 ≤ slot.val →
    (i = .test slot ∨ (∃ addr, i = .rdreg slot addr) ∨ (∃ addr data, i = .wrreg slot addr data) ∨
      (∃ f0 f1 f2 f3, i = .setf slot f0 f1 f2 f3) ∨ ∃ w0 w1, i = .seta slot w0 w1) →
    NextIs (exec i s)
      (afterDone (afterText (line (text ['E', 'R', 'R', ' ', 's', 'l', 'o', 't'])) s))

/-- R173, R234, R242 (2): a register of length 0 is reported by `WRREG` and `RDREG` on a wired slot,
before the length and the read capability are looked at, with no device event (the text is decision
D12). -/
def Obligations.UntransferableRegisterIsReported : Prop :=
  ∀ (s : State) (slot : Fin 8) (addr : Byte) (i : Instr), s.op ≠ .idle → slot.val < 4 →
    s.cfg.regLen addr = 0 → (i = .rdreg slot addr ∨ ∃ data, i = .wrreg slot addr data) →
    NextIs (exec i s)
      (afterDone (afterText
        (line (text ['E', 'R', 'R', ' ', 'r', 'e', 'g', 'i', 's', 't', 'e', 'r'])) s))

/-- R235: a write of fewer bytes than the register holds is reported, with no device event (decision
D10). -/
def Obligations.ShortWriteIsReported : Prop :=
  ∀ (s : State) (slot : Fin 8) (addr : Byte) (data : List Byte), s.op ≠ .idle → slot.val < 4 →
    0 < s.cfg.regLen addr → data.length < s.cfg.regLen addr →
    NextIs (exec (.wrreg slot addr data) s)
      (afterDone (afterText (line (text ['E', 'R', 'R', ' ', 'l', 'e', 'n', 'g', 't', 'h'])) s))

/-- R236: without read capability `PRESENCE`, and `RDREG` of a transferable register on a wired slot,
are reported, with no device event (decision D13). -/
def Obligations.ReadsWithoutCapabilityAreReported : Prop :=
  ∀ (s : State) (i : Instr), s.op ≠ .idle → s.cfg.readCapable = false →
    (i = .presence ∨
      ∃ slot addr, i = .rdreg slot addr ∧ slot.val < 4 ∧ 0 < s.cfg.regLen addr) →
    NextIs (exec i s)
      (afterDone (afterText (line (text ['E', 'R', 'R', ' ', 'n', 'o', 'r', 'e', 'a', 'd'])) s))

/-- R162, R176 (2): under R8 every command of the dispatcher, in every state, answers a next state with
`OP` = `Idle` and a transcript that ends with its acknowledgement line. -/
def Obligations.EveryCommandCompletesWithDone : Prop :=
  ∀ (s : State) (i : Instr), s.cfg.Valid → i.isFrame = false → i ≠ .abort →
    ∃ t, exec i s = .next t ∧ t.op = .idle ∧ ∃ own, t.out = s.out ++ own ++ doneLine

/-! ## The frames of the Transfer Protocol -/

/-- R203: `SPI_WR` within its preconditions drives exactly the events of a write transfer with the
first `REG_LEN` data bytes and changes nothing else. With the gate closed or no byte arriving the next
state is that; in every state everything the parser cannot touch is that, and the whole next state is
that with the bytes that arrive in its gaps parsed in order (R10, R271; the gaps are
notes/assumptions/5.md). (The strobe, the pulse and the place of the delays are decisions D14, D15,
D17.) -/
def Obligations.WriteFrameDrivesTheWriteTransfer : Prop :=
  ∀ (s : State) (slot : Fin 8) (h : slot.val < 4) (a : RegAddr) (data : List Byte),
    0 < s.cfg.regLen (a.setWidth 8) → s.cfg.regLen (a.setWidth 8) ≤ data.length →
    ((s.op ≠ .idle ∨ s.gaps = []) →
      NextIs (exec (.spiWr slot a data) s)
        (afterWrite ⟨slot.val, h⟩ (a.setWidth 8) (data.take (s.cfg.regLen (a.setWidth 8))) s)) ∧
    ∃ t, exec (.spiWr slot a data) s = .next t ∧
      deviceSide t =
        deviceSide
          (afterWrite ⟨slot.val, h⟩ (a.setWidth 8) (data.take (s.cfg.regLen (a.setWidth 8))) s) ∧
      t = interrupted s
        (afterWrite ⟨slot.val, h⟩ (a.setWidth 8) (data.take (s.cfg.regLen (a.setWidth 8))) s)

/-- R204, R205: `SPI_RD` within its preconditions drives exactly the events of a read transfer, puts the
captured bytes in `RRB[0 .. L-1]`, releases the chip-select and, announced, prints the bytes
(`afterReadFrame`). Nothing else changes (elements `L .. 7` keep their values: decision D19): with the
gate closed or no byte arriving the next state is that; in every state everything the parser cannot
touch is that, and the whole next state is that with the bytes that arrive in its gaps parsed in order
(R10; the gaps are notes/assumptions/5.md). -/
def Obligations.ReadFrameCapturesTheRegister : Prop :=
  ∀ (s : State) (slot : Fin 8) (h : slot.val < 4) (a : RegAddr) (announce : Bool),
    0 < s.cfg.regLen (a.setWidth 8) →
    ((s.op ≠ .idle ∨ s.gaps = []) →
      NextIs (exec (.spiRd slot a announce) s)
        (afterReadFrame ⟨slot.val, h⟩ (a.setWidth 8) announce s)) ∧
    ∃ t, exec (.spiRd slot a announce) s = .next t ∧
      deviceSide t = deviceSide (afterReadFrame ⟨slot.val, h⟩ (a.setWidth 8) announce s) ∧
      t = interrupted s (afterReadFrame ⟨slot.val, h⟩ (a.setWidth 8) announce s)

/-- R28, R204, R283: after a read element j of `RRB` is the j-th byte captured after the address byte
for j below the register's length, and its old value above (decision D19). -/
def Obligations.CapturedBytesOverwriteOnlyTheFirstElements : Prop :=
  ∀ (s : State) (slot : Fin 8) (a : RegAddr) (announce : Bool), slot.val < 4 →
    0 < s.cfg.regLen (a.setWidth 8) →
    ∃ t, exec (.spiRd slot a announce) s = .next t ∧
      ∀ (j : Nat) (hj : j < 8),
        t.rrb[j] =
          if j < s.cfg.regLen (a.setWidth 8) then answerAt s.answers (s.draws + 1 + j)
          else s.rrb[j]

/-- R209: a call outside the preconditions of R200 has no step: a slot that is not wired, a register of
length 0, too little data (decision D29). -/
def Obligations.CallsOutsideThePreconditionsAreRefused : Prop :=
  ∀ (s : State) (slot : Fin 8) (a : RegAddr) (data : List Byte) (announce : Bool),
    (4 ≤ slot.val →
      exec (.spiWr slot a data) s = .refused .transferSlot ∧
      exec (.spiRd slot a announce) s = .refused .transferSlot) ∧
    (slot.val < 4 → s.cfg.regLen (a.setWidth 8) = 0 →
      exec (.spiWr slot a data) s = .refused .transferLength ∧
      exec (.spiRd slot a announce) s = .refused .transferLength) ∧
    (slot.val < 4 → data.length < s.cfg.regLen (a.setWidth 8) →
      exec (.spiWr slot a data) s = .refused .transferData)

/-! ## The machine as a whole -/

/-- R63 (4), R111, R212: bytes that arrive between the events of an executing command change nothing:
the command's outcome is the same whatever they are, but for the bytes themselves. -/
def Obligations.BytesDuringACommandChangeNothing : Prop :=
  ∀ (s t : State) (i : Instr) (arriving : List (List Byte)), s.op ≠ .idle →
    exec i s = .next t → NextIs (exec i { s with gaps := arriving }) t

/-- R207: the initialisation sends the same events from any two states with the same configuration
(captured bytes, which it discards, apart), leaves the read result and the Test bit alone, and leaves
every line at rest, wherever it was before. -/
def Obligations.ResetAllIsIdempotentOnTheBus : Prop :=
  ∀ s s' t t' : State, s.cfg.Valid → s'.cfg = s.cfg →
    exec .resetAll s = .next t → exec .resetAll s' = .next t' →
    ∃ es es', t.dev = s.dev ++ es ∧ t'.dev = s'.dev ++ es' ∧
      es.map DevEvent.sent = es'.map DevEvent.sent ∧
      t.rrb = s.rrb ∧ t.testBit = s.testBit ∧
      t.rst = .low ∧ t.ioup = .low ∧ t.cs = Vector.replicate 4 false

/-- R271: with `BOOT_INIT`, from power-on, the main loop's first steps, four for each slot with read
capability and two without, drive the initialisation of every slot, print nothing, and leave every
other piece of state as reset left it, but that the bytes that arrive in the gaps are parsed, in order;
a command these bytes resolve is run by the step after them, the first poll. Without `BOOT_INIT` the
first step is a poll that changes nothing. (Decision D21; one call a step and the gaps are the model's
choice, notes/assumptions/5.md and 6.md.) -/
def Obligations.BootRunsTheInitialisationOnce : Prop :=
  ∀ (c : Config) (answers : List Byte) (n : Nat) (gaps : List (List Byte)), c.Valid →
    let s : State := { State.powerOn c with answers := answers, draws := n, gaps := gaps };
    (c.bootInit = true →
      ∃ t : State, Sys2Proof.core.run (4 * if c.readCapable then 4 else 2) s = .next t ∧
        t = { interrupted s (afterInitAll s) with bootDue := false } ∧
        ∀ i, mailboxInstr t = some i → step t = exec i t) ∧
    (c.bootInit = false → step s = .next s)

/-- R176 (1), R203, R204: the round trip against the echo device of 95_test_vectors.md. Writing at
least as many bytes as the register holds leaves the device holding exactly the first of them, as many
as the register holds; a later read that the device answers with what it holds (the premise on the
captured bytes is how the echo device answers) prints exactly those. -/
def Obligations.EchoDeviceReturnsWhatWasWritten : Prop :=
  ∀ (s t u : State) (slot : Fin 8) (h : slot.val < 4) (addr : Byte) (data : List Byte) (d : Stub),
    s.cfg.Valid → s.op ≠ .idle → 0 < s.cfg.regLen addr → s.cfg.regLen addr ≤ data.length →
    exec (.wrreg slot addr data) s = .next t →
    (Stub.run ⟨slot.val, h⟩ s.cfg.regLen d (t.dev.drop s.dev.length)).reg addr =
      data.take (s.cfg.regLen addr) ∧
    (u.op ≠ .idle → u.cfg = s.cfg → u.cfg.readCapable = true →
      readBytes (s.cfg.regLen addr) u =
        (Stub.run ⟨slot.val, h⟩ s.cfg.regLen d (t.dev.drop s.dev.length)).reg addr →
      ∃ v, exec (.rdreg slot addr) u = .next v ∧
        v.out = u.out ++
          line (List.intercalate [0x20] ((data.take (s.cfg.regLen addr)).map hex2)) ++ doneLine ∧
        v.rrb.toList.take (s.cfg.regLen addr) = data.take (s.cfg.regLen addr))

/-- R22, R25, R111, R202, R210: every step from a state that meets the invariant keeps it: the parser
idle while a command is pending, counters within their bounds, stored digits hex, the lines at rest
between steps, and the whole device trace in the order R210 and R202 allow. -/
def Obligations.EveryStepKeepsTheInvariant : Prop :=
  ∀ s t : State, Inv s → step s = .next t → Inv t

/-- R94, R139, R176 (3): from every state that meets the invariant the step goes on: no byte sequence
traps, and no transfer is called outside its preconditions. -/
def Obligations.NoStepStopsUnderTheInvariant : Prop :=
  ∀ s : State, Inv s → ∃ t, step s = .next t

/-! ## The calls of the boot sequence -/

/-- R206, R271, R10: an awaiting strobe pulses `RST` and changes nothing else; the bytes that arrive in
its gaps are parsed, in order, and whatever they are, everything the parser cannot touch is as the
strobe leaves it (one call a step: notes/assumptions/6.md). -/
def Obligations.StrobeCallPulsesTheResetLine : Prop :=
  (∀ (s : State) (cs : List Call), (s.input = [] ∨ ∃ rest, s.input = .tick :: rest) →
    pendingCalls s = .strobe :: cs →
    step s = .next { interrupted s (afterStrobe s) with bootDue := false, calls := cs }) ∧
  ∀ s : State, deviceSide (strobe s) = deviceSide (afterStrobe s)

/-- R206, R271: whenever the calls that initialise one slot stand before the main loop, and no byte
stands before them, as many steps as there are calls drive exactly that slot's initialisation and leave
the calls after them; no poll happens meanwhile, a `Tick` in front is not used up, and the bytes that
arrive in the gaps are parsed in order (one call a step and the gaps are the model's choice,
notes/assumptions/5.md and 6.md). -/
def Obligations.BootCallsInitialiseTheirSlot : Prop :=
  ∀ (s : State) (slot : Fin 8) (h : slot.val < 4) (cs : List Call), s.cfg.Valid →
    (s.input = [] ∨ ∃ rest, s.input = .tick :: rest) →
    pendingCalls s = initCalls s.cfg slot ++ cs →
    Sys2Proof.core.run (initCalls s.cfg slot).length s =
      .next { interrupted s (afterInit ⟨slot.val, h⟩ s) with bootDue := false, calls := cs }
end

