-- ==== Sys2Proof/Laws/State.lean ====
section
/-! SUPPORT. The small lemmas of the named updates: one per field an update touches or that later
proofs read through it. -/
namespace Sys2Proof.Machine

/-! ## Flags and parser updates -/

@[simp] theorem resolve_op (k : Kind) (s : State) : (resolve k s).op = k := rfl
@[simp] theorem resolve_pstate (k : Kind) (s : State) : (resolve k s).pstate = .idle := rfl
@[simp] theorem resolve_pos (k : Kind) (s : State) : (resolve k s).pos = s.pos := rfl
@[simp] theorem resolve_slot (k : Kind) (s : State) : (resolve k s).slot = s.slot := rfl
@[simp] theorem resolve_addrc (k : Kind) (s : State) : (resolve k s).addrc = s.addrc := rfl
@[simp] theorem resolve_nlen (k : Kind) (s : State) : (resolve k s).nlen = s.nlen := rfl
@[simp] theorem resolve_pay (k : Kind) (s : State) : (resolve k s).pay = s.pay := rfl

@[simp] theorem enter_op (p : PState) (n : Nat) (s : State) : (enter p n s).op = s.op := rfl
@[simp] theorem enter_pstate (p : PState) (n : Nat) (s : State) : (enter p n s).pstate = p := rfl
@[simp] theorem enter_pos (p : PState) (n : Nat) (s : State) : (enter p n s).pos = n := rfl
@[simp] theorem enter_slot (p : PState) (n : Nat) (s : State) : (enter p n s).slot = s.slot := rfl
@[simp] theorem enter_addrc (p : PState) (n : Nat) (s : State) :
    (enter p n s).addrc = s.addrc := rfl
@[simp] theorem enter_nlen (p : PState) (n : Nat) (s : State) : (enter p n s).nlen = s.nlen := rfl
@[simp] theorem enter_pay (p : PState) (n : Nat) (s : State) : (enter p n s).pay = s.pay := rfl

@[simp] theorem advance_op (s : State) : (advance s).op = s.op := rfl
@[simp] theorem advance_pstate (s : State) : (advance s).pstate = s.pstate := rfl
@[simp] theorem advance_pos (s : State) : (advance s).pos = s.pos + 1 := rfl
@[simp] theorem advance_slot (s : State) : (advance s).slot = s.slot := rfl
@[simp] theorem advance_addrc (s : State) : (advance s).addrc = s.addrc := rfl
@[simp] theorem advance_nlen (s : State) : (advance s).nlen = s.nlen := rfl
@[simp] theorem advance_pay (s : State) : (advance s).pay = s.pay := rfl

@[simp] theorem dropPartial_op (s : State) : (dropPartial s).op = s.op := rfl
@[simp] theorem dropPartial_pstate (s : State) : (dropPartial s).pstate = .idle := rfl
@[simp] theorem dropPartial_pos (s : State) : (dropPartial s).pos = s.pos := rfl
@[simp] theorem dropPartial_slot (s : State) : (dropPartial s).slot = s.slot := rfl
@[simp] theorem dropPartial_addrc (s : State) : (dropPartial s).addrc = s.addrc := rfl
@[simp] theorem dropPartial_nlen (s : State) : (dropPartial s).nlen = s.nlen := rfl
@[simp] theorem dropPartial_pay (s : State) : (dropPartial s).pay = s.pay := rfl

@[simp] theorem storeDigit_op (b : Byte) (s : State) : (storeDigit b s).op = s.op := rfl
@[simp] theorem storeDigit_pstate (b : Byte) (s : State) : (storeDigit b s).pstate = s.pstate := rfl
@[simp] theorem storeDigit_pos (b : Byte) (s : State) : (storeDigit b s).pos = s.pos + 1 := rfl
@[simp] theorem storeDigit_slot (b : Byte) (s : State) : (storeDigit b s).slot = s.slot := rfl
@[simp] theorem storeDigit_addrc (b : Byte) (s : State) : (storeDigit b s).addrc = s.addrc := rfl
@[simp] theorem storeDigit_nlen (b : Byte) (s : State) : (storeDigit b s).nlen = s.nlen := rfl
@[simp] theorem storeDigit_pay (b : Byte) (s : State) :
    (storeDigit b s).pay = s.pay.setIfInBounds s.pos b := rfl

@[simp] theorem clearReady_op (s : State) : (clearReady s).op = .idle := rfl
@[simp] theorem toggleTestBit_testBit (s : State) : (toggleTestBit s).testBit = !s.testBit := rfl
@[simp] theorem toggleTestBit_op (s : State) : (toggleTestBit s).op = s.op := rfl
@[simp] theorem toggleTestBit_cfg (s : State) : (toggleTestBit s).cfg = s.cfg := rfl

theorem ready_iff (s : State) : s.ready = true ↔ s.op ≠ .idle := by simp [State.ready]

/-! ## The states after a transfer, a text or a command -/

@[simp] theorem afterStrobe_op (s : State) :
    (afterStrobe s).op = s.op := rfl
@[simp] theorem afterStrobe_rrb (s : State) :
    (afterStrobe s).rrb = s.rrb := rfl
@[simp] theorem afterStrobe_testBit (s : State) :
    (afterStrobe s).testBit = s.testBit := rfl
@[simp] theorem afterStrobe_buf (s : State) :
    (afterStrobe s).buf = s.buf := rfl
@[simp] theorem afterStrobe_rst (s : State) :
    (afterStrobe s).rst = .low := rfl
@[simp] theorem afterStrobe_ioup (s : State) :
    (afterStrobe s).ioup = s.ioup := rfl
@[simp] theorem afterStrobe_cs (s : State) :
    (afterStrobe s).cs = s.cs := rfl
@[simp] theorem afterStrobe_out (s : State) :
    (afterStrobe s).out = s.out := rfl
@[simp] theorem afterStrobe_dev (s : State) :
    (afterStrobe s).dev = s.dev ++ strobeEvents := rfl
@[simp] theorem afterStrobe_cfg (s : State) :
    (afterStrobe s).cfg = s.cfg := rfl
@[simp] theorem afterStrobe_gaps (s : State) :
    (afterStrobe s).gaps = s.gaps := rfl
@[simp] theorem afterStrobe_answers (s : State) :
    (afterStrobe s).answers = s.answers := rfl
@[simp] theorem afterStrobe_draws (s : State) :
    (afterStrobe s).draws = s.draws := rfl

@[simp] theorem afterWrite_op (k : Fin 4) (a : Byte) (data : List Byte) (s : State) :
    (afterWrite k a data s).op = s.op := rfl
@[simp] theorem afterWrite_rrb (k : Fin 4) (a : Byte) (data : List Byte) (s : State) :
    (afterWrite k a data s).rrb = s.rrb := rfl
@[simp] theorem afterWrite_testBit (k : Fin 4) (a : Byte) (data : List Byte) (s : State) :
    (afterWrite k a data s).testBit = s.testBit := rfl
@[simp] theorem afterWrite_buf (k : Fin 4) (a : Byte) (data : List Byte) (s : State) :
    (afterWrite k a data s).buf = s.buf := rfl
@[simp] theorem afterWrite_rst (k : Fin 4) (a : Byte) (data : List Byte) (s : State) :
    (afterWrite k a data s).rst = .low := rfl
@[simp] theorem afterWrite_ioup (k : Fin 4) (a : Byte) (data : List Byte) (s : State) :
    (afterWrite k a data s).ioup = .low := rfl
@[simp] theorem afterWrite_cs (k : Fin 4) (a : Byte) (data : List Byte) (s : State) :
    (afterWrite k a data s).cs = s.cs.set k false := rfl
@[simp] theorem afterWrite_out (k : Fin 4) (a : Byte) (data : List Byte) (s : State) :
    (afterWrite k a data s).out = s.out := rfl
@[simp] theorem afterWrite_dev (k : Fin 4) (a : Byte) (data : List Byte) (s : State) :
    (afterWrite k a data s).dev = s.dev ++ writeEvents k a data s.answers s.draws := rfl
@[simp] theorem afterWrite_cfg (k : Fin 4) (a : Byte) (data : List Byte) (s : State) :
    (afterWrite k a data s).cfg = s.cfg := rfl
@[simp] theorem afterWrite_gaps (k : Fin 4) (a : Byte) (data : List Byte) (s : State) :
    (afterWrite k a data s).gaps = s.gaps := rfl
@[simp] theorem afterWrite_answers (k : Fin 4) (a : Byte) (data : List Byte) (s : State) :
    (afterWrite k a data s).answers = s.answers := rfl
@[simp] theorem afterWrite_draws (k : Fin 4) (a : Byte) (data : List Byte) (s : State) :
    (afterWrite k a data s).draws = s.draws + (data.length + 1) := rfl

@[simp] theorem afterRead_op (k : Fin 4) (a : Byte) (m : Nat) (s : State) :
    (afterRead k a m s).op = s.op := rfl
@[simp] theorem afterRead_rrb (k : Fin 4) (a : Byte) (m : Nat) (s : State) :
    (afterRead k a m s).rrb = putBytes s.rrb 0 (captured s.answers (s.draws + 1) m) := rfl
@[simp] theorem afterRead_testBit (k : Fin 4) (a : Byte) (m : Nat) (s : State) :
    (afterRead k a m s).testBit = s.testBit := rfl
@[simp] theorem afterRead_buf (k : Fin 4) (a : Byte) (m : Nat) (s : State) :
    (afterRead k a m s).buf = s.buf := rfl
@[simp] theorem afterRead_rst (k : Fin 4) (a : Byte) (m : Nat) (s : State) :
    (afterRead k a m s).rst = s.rst := rfl
@[simp] theorem afterRead_ioup (k : Fin 4) (a : Byte) (m : Nat) (s : State) :
    (afterRead k a m s).ioup = s.ioup := rfl
@[simp] theorem afterRead_cs (k : Fin 4) (a : Byte) (m : Nat) (s : State) :
    (afterRead k a m s).cs = s.cs.set k false := rfl
@[simp] theorem afterRead_out (k : Fin 4) (a : Byte) (m : Nat) (s : State) :
    (afterRead k a m s).out = s.out := rfl
@[simp] theorem afterRead_dev (k : Fin 4) (a : Byte) (m : Nat) (s : State) :
    (afterRead k a m s).dev = s.dev ++ readEvents k a m s.answers s.draws := rfl
@[simp] theorem afterRead_cfg (k : Fin 4) (a : Byte) (m : Nat) (s : State) :
    (afterRead k a m s).cfg = s.cfg := rfl
@[simp] theorem afterRead_gaps (k : Fin 4) (a : Byte) (m : Nat) (s : State) :
    (afterRead k a m s).gaps = s.gaps := rfl
@[simp] theorem afterRead_answers (k : Fin 4) (a : Byte) (m : Nat) (s : State) :
    (afterRead k a m s).answers = s.answers := rfl
@[simp] theorem afterRead_draws (k : Fin 4) (a : Byte) (m : Nat) (s : State) :
    (afterRead k a m s).draws = s.draws + (m + 1) := rfl

@[simp] theorem afterText_op (cs : List Byte) (s : State) :
    (afterText cs s).op = s.op := rfl
@[simp] theorem afterText_rrb (cs : List Byte) (s : State) :
    (afterText cs s).rrb = s.rrb := rfl
@[simp] theorem afterText_testBit (cs : List Byte) (s : State) :
    (afterText cs s).testBit = s.testBit := rfl
@[simp] theorem afterText_buf (cs : List Byte) (s : State) :
    (afterText cs s).buf = s.buf := rfl
@[simp] theorem afterText_rst (cs : List Byte) (s : State) :
    (afterText cs s).rst = s.rst := rfl
@[simp] theorem afterText_ioup (cs : List Byte) (s : State) :
    (afterText cs s).ioup = s.ioup := rfl
@[simp] theorem afterText_cs (cs : List Byte) (s : State) :
    (afterText cs s).cs = s.cs := rfl
@[simp] theorem afterText_out (cs : List Byte) (s : State) :
    (afterText cs s).out = s.out ++ cs := rfl
@[simp] theorem afterText_dev (cs : List Byte) (s : State) :
    (afterText cs s).dev = s.dev := rfl
@[simp] theorem afterText_cfg (cs : List Byte) (s : State) :
    (afterText cs s).cfg = s.cfg := rfl
@[simp] theorem afterText_gaps (cs : List Byte) (s : State) :
    (afterText cs s).gaps = s.gaps := rfl
@[simp] theorem afterText_answers (cs : List Byte) (s : State) :
    (afterText cs s).answers = s.answers := rfl
@[simp] theorem afterText_draws (cs : List Byte) (s : State) :
    (afterText cs s).draws = s.draws := rfl

@[simp] theorem afterDone_op (s : State) :
    (afterDone s).op = .idle := rfl
@[simp] theorem afterDone_rrb (s : State) :
    (afterDone s).rrb = s.rrb := rfl
@[simp] theorem afterDone_testBit (s : State) :
    (afterDone s).testBit = s.testBit := rfl
@[simp] theorem afterDone_buf (s : State) :
    (afterDone s).buf = s.buf := rfl
@[simp] theorem afterDone_rst (s : State) :
    (afterDone s).rst = s.rst := rfl
@[simp] theorem afterDone_ioup (s : State) :
    (afterDone s).ioup = s.ioup := rfl
@[simp] theorem afterDone_cs (s : State) :
    (afterDone s).cs = s.cs := rfl
@[simp] theorem afterDone_out (s : State) :
    (afterDone s).out = s.out ++ doneLine := rfl
@[simp] theorem afterDone_dev (s : State) :
    (afterDone s).dev = s.dev := rfl
@[simp] theorem afterDone_cfg (s : State) :
    (afterDone s).cfg = s.cfg := rfl
@[simp] theorem afterDone_gaps (s : State) :
    (afterDone s).gaps = s.gaps := rfl
@[simp] theorem afterDone_answers (s : State) :
    (afterDone s).answers = s.answers := rfl
@[simp] theorem afterDone_draws (s : State) :
    (afterDone s).draws = s.draws := rfl

@[simp] theorem afterReadFrame_op (k : Fin 4) (a : Byte) (announce : Bool) (s : State) :
    (afterReadFrame k a announce s).op = s.op := rfl
@[simp] theorem afterReadFrame_rrb (k : Fin 4) (a : Byte) (announce : Bool) (s : State) :
    (afterReadFrame k a announce s).rrb = putBytes s.rrb 0 (readBytes (s.cfg.regLen a) s) := rfl
@[simp] theorem afterReadFrame_testBit (k : Fin 4) (a : Byte) (announce : Bool) (s : State) :
    (afterReadFrame k a announce s).testBit = s.testBit := rfl
@[simp] theorem afterReadFrame_buf (k : Fin 4) (a : Byte) (announce : Bool) (s : State) :
    (afterReadFrame k a announce s).buf = s.buf := rfl
@[simp] theorem afterReadFrame_rst (k : Fin 4) (a : Byte) (announce : Bool) (s : State) :
    (afterReadFrame k a announce s).rst = s.rst := rfl
@[simp] theorem afterReadFrame_ioup (k : Fin 4) (a : Byte) (announce : Bool) (s : State) :
    (afterReadFrame k a announce s).ioup = s.ioup := rfl
@[simp] theorem afterReadFrame_cs (k : Fin 4) (a : Byte) (announce : Bool) (s : State) :
    (afterReadFrame k a announce s).cs = s.cs.set k false := rfl
@[simp] theorem afterReadFrame_dev (k : Fin 4) (a : Byte) (announce : Bool) (s : State) :
    (afterReadFrame k a announce s).dev = s.dev ++ readEvents k a (s.cfg.regLen a) s.answers s.draws := rfl
@[simp] theorem afterReadFrame_cfg (k : Fin 4) (a : Byte) (announce : Bool) (s : State) :
    (afterReadFrame k a announce s).cfg = s.cfg := rfl
@[simp] theorem afterReadFrame_gaps (k : Fin 4) (a : Byte) (announce : Bool) (s : State) :
    (afterReadFrame k a announce s).gaps = s.gaps := rfl
@[simp] theorem afterReadFrame_answers (k : Fin 4) (a : Byte) (announce : Bool) (s : State) :
    (afterReadFrame k a announce s).answers = s.answers := rfl
@[simp] theorem afterReadFrame_draws (k : Fin 4) (a : Byte) (announce : Bool) (s : State) :
    (afterReadFrame k a announce s).draws = s.draws + (s.cfg.regLen a + 1) := rfl
@[simp] theorem afterReadFrame_out (k : Fin 4) (a : Byte) (announce : Bool) (s : State) :
    (afterReadFrame k a announce s).out = s.out ++
      (if announce = true then
        line (List.intercalate [0x20] ((readBytes (s.cfg.regLen a) s).map hex2))
      else []) := rfl

@[simp] theorem loadBuf_op (data : List Byte) (s : State) :
    (loadBuf data s).op = s.op := rfl
@[simp] theorem loadBuf_rrb (data : List Byte) (s : State) :
    (loadBuf data s).rrb = s.rrb := rfl
@[simp] theorem loadBuf_testBit (data : List Byte) (s : State) :
    (loadBuf data s).testBit = s.testBit := rfl
@[simp] theorem loadBuf_buf (data : List Byte) (s : State) :
    (loadBuf data s).buf = putBytes s.buf 0 (data.take 8) := rfl
@[simp] theorem loadBuf_rst (data : List Byte) (s : State) :
    (loadBuf data s).rst = s.rst := rfl
@[simp] theorem loadBuf_ioup (data : List Byte) (s : State) :
    (loadBuf data s).ioup = s.ioup := rfl
@[simp] theorem loadBuf_cs (data : List Byte) (s : State) :
    (loadBuf data s).cs = s.cs := rfl
@[simp] theorem loadBuf_out (data : List Byte) (s : State) :
    (loadBuf data s).out = s.out := rfl
@[simp] theorem loadBuf_dev (data : List Byte) (s : State) :
    (loadBuf data s).dev = s.dev := rfl
@[simp] theorem loadBuf_cfg (data : List Byte) (s : State) :
    (loadBuf data s).cfg = s.cfg := rfl
@[simp] theorem loadBuf_gaps (data : List Byte) (s : State) :
    (loadBuf data s).gaps = s.gaps := rfl
@[simp] theorem loadBuf_answers (data : List Byte) (s : State) :
    (loadBuf data s).answers = s.answers := rfl
@[simp] theorem loadBuf_draws (data : List Byte) (s : State) :
    (loadBuf data s).draws = s.draws := rfl

/-! ## Sequencing -/

@[simp] theorem andThen_next (s : State) (f : State → Host.Outcome State Fault Refusal) :
    andThen (.next s) f = f s := rfl
@[simp] theorem andThen_fault (r : Fault) (f : State → Host.Outcome State Fault Refusal) :
    andThen (.fault r) f = .fault r := rfl
@[simp] theorem andThen_refused (r : Refusal) (f : State → Host.Outcome State Fault Refusal) :
    andThen (.refused r) f = .refused r := rfl

/-- What can be said of a sequence that answers a next state: both parts did. -/
theorem andThen_eq_next {o : Host.Outcome State Fault Refusal}
    {f : State → Host.Outcome State Fault Refusal} {t : State} :
    andThen o f = .next t ↔ ∃ s, o = .next s ∧ f s = .next t := by
  cases o <;> simp [andThen]

@[simp] theorem complete_next (s : State) : complete (.next s) = .next (epilogue s) := rfl

theorem complete_eq_next {o : Host.Outcome State Fault Refusal} {t : State} :
    complete o = .next t ↔ ∃ s, o = .next s ∧ t = epilogue s := by
  simp only [complete, andThen_eq_next, Host.Outcome.next.injEq, eq_comm (a := t)]

end Sys2Proof.Machine
end

