-- ==== Sys2Proof/Laws/Parser.lean ====
section
/-! SUPPORT. The parser: the gate, what a transition can write (10_state.md R38), and the invariant
every transition keeps. -/
namespace Sys2Proof.Machine

/-- With the gate closed a byte changes nothing (R111). -/
@[simp] theorem parserStep_closed {s : State} (h : s.op ≠ .idle) (b : Byte) : parserStep b s = s := by
  simp [parserStep, h]

@[simp] theorem parseBytes_nil (s : State) : parseBytes [] s = s := rfl
@[simp] theorem parseBytes_cons (b : Byte) (bs : List Byte) (s : State) :
    parseBytes (b :: bs) s = parseBytes bs (parserStep b s) := rfl

theorem parseBytes_append (as bs : List Byte) (s : State) :
    parseBytes (as ++ bs) s = parseBytes bs (parseBytes as s) := by
  simp [parseBytes, List.foldl_append]

/-- With the gate closed any bytes change nothing (R111). -/
@[simp] theorem parseBytes_closed {s : State} (h : s.op ≠ .idle) (bs : List Byte) :
    parseBytes bs s = s := by
  induction bs with
  | nil => rfl
  | cons b bs ih => simp [h, ih]

/-- Everything a transition of the parser can write (R38): the parser's own fields and the mailbox. -/
theorem parserStep_frame (b : Byte) (s : State) :
    ∃ p n o sl a nl pay, parserStep b s =
      { s with pstate := p, pos := n, op := o, slot := sl, addrc := a, nlen := nl, pay := pay } := by
  refine ⟨(parserStep b s).pstate, (parserStep b s).pos, (parserStep b s).op, (parserStep b s).slot,
    (parserStep b s).addrc, (parserStep b s).nlen, (parserStep b s).pay, ?_⟩
  unfold parserStep parseRow parseIdle parseIdn parseIndex parseAddress parseLength parseData
    parseFrequency parseAmplitude parsePhase parseDigit
  repeat' split
  all_goals rfl

/-- The same for any bytes. -/
theorem parseBytes_frame (bs : List Byte) (s : State) :
    ∃ p n o sl a nl pay, parseBytes bs s =
      { s with pstate := p, pos := n, op := o, slot := sl, addrc := a, nlen := nl, pay := pay } := by
  induction bs generalizing s with
  | nil => exact ⟨_, _, _, _, _, _, _, rfl⟩
  | cons b bs ih =>
    obtain ⟨p, n, o, sl, a, nl, pay, h⟩ := parserStep_frame b s
    obtain ⟨p', n', o', sl', a', nl', pay', h'⟩ := ih (parserStep b s)
    exact ⟨p', n', o', sl', a', nl', pay', by rw [parseBytes_cons, h', h]⟩

/-! ## The parser looks at nothing but its own fields -/

/-- `t` with the parser's fields of `p` (R38). -/
def withParser (p t : State) : State :=
  { t with
    pstate := p.pstate, pos := p.pos, op := p.op, slot := p.slot, addrc := p.addrc, nlen := p.nlen,
    pay := p.pay }

@[simp] theorem withParser_pstate (p t : State) : (withParser p t).pstate = p.pstate := rfl
@[simp] theorem withParser_pos (p t : State) : (withParser p t).pos = p.pos := rfl
@[simp] theorem withParser_op (p t : State) : (withParser p t).op = p.op := rfl
@[simp] theorem withParser_slot (p t : State) : (withParser p t).slot = p.slot := rfl
@[simp] theorem withParser_addrc (p t : State) : (withParser p t).addrc = p.addrc := rfl
@[simp] theorem withParser_nlen (p t : State) : (withParser p t).nlen = p.nlen := rfl
@[simp] theorem withParser_pay (p t : State) : (withParser p t).pay = p.pay := rfl

/-- A transition is the same whatever the rest of the state holds. -/
theorem parserStep_withParser (b : Byte) (p t : State) :
    parserStep b (withParser p t) = withParser (parserStep b p) t := by
  have idle : parseIdle b (withParser p t) = withParser (parseIdle b p) t := by
    unfold parseIdle
    split_ifs <;> rfl
  have idn : parseIdn b (withParser p t) = withParser (parseIdn b p) t := by
    unfold parseIdn
    split_ifs <;> first | rfl | simp_all
  have index : parseIndex b (withParser p t) = withParser (parseIndex b p) t := by
    unfold parseIndex
    split_ifs <;> first | rfl | (split <;> rfl) | simp_all
  have address : parseAddress b (withParser p t) = withParser (parseAddress b p) t := by
    unfold parseAddress
    split_ifs <;> first | rfl | simp_all
  have length : parseLength b (withParser p t) = withParser (parseLength b p) t := by
    unfold parseLength
    split_ifs <;> first | rfl | (split <;> rfl) | simp_all
  have digit : ∀ n k, parseDigit n k b (withParser p t) = withParser (parseDigit n k b p) t := by
    intro n k
    unfold parseDigit
    split_ifs <;> first | rfl | simp_all
  have row : parseRow b (withParser p t) = withParser (parseRow b p) t := by
    simp only [parseRow, withParser_pstate]
    split
    · exact idle
    · exact idn
    · exact index
    · exact address
    · exact length
    all_goals exact digit _ _
  by_cases ho : p.op = .idle
  · by_cases hb : b = 0x2f
    · subst hb
      simp only [parserStep, withParser_op, ho, ne_eq, not_true_eq_false, if_false, if_true]
      rfl
    · simp only [parserStep, withParser_op, ho, ne_eq, not_true_eq_false, if_false, if_neg hb]
      exact row
  · simp [parserStep, ho]

theorem parseBytes_withParser (bs : List Byte) (p t : State) :
    parseBytes bs (withParser p t) = withParser (parseBytes bs p) t := by
  induction bs generalizing p with
  | nil => rfl
  | cons b bs ih => rw [parseBytes_cons, parseBytes_cons, parserStep_withParser, ih]

/-- Whatever the parser does to a state, the rest of the state stays. -/
theorem parseBytes_eq_withParser (bs : List Byte) (s : State) :
    parseBytes bs s = withParser (parseBytes bs s) s := parseBytes_withParser bs s s

theorem parserStep_input (b : Byte) (s : State) (es : List Event) :
    parserStep b { s with input := es } = { parserStep b s with input := es } := by
  have h := parserStep_withParser b s { s with input := es }
  have hf : parserStep b s = withParser (parserStep b s) s := parserStep_withParser b s s
  refine h.trans ?_
  conv => rhs; rw [hf]
  rfl

theorem parseBytes_input (bs : List Byte) (s : State) (es : List Event) :
    parseBytes bs { s with input := es } = { parseBytes bs s with input := es } := by
  refine (parseBytes_withParser bs s { s with input := es }).trans ?_
  conv => rhs; rw [parseBytes_eq_withParser]
  rfl

theorem parseBytes_gaps (bs : List Byte) (s : State) (g : List (List Byte)) :
    parseBytes bs { s with gaps := g } = { parseBytes bs s with gaps := g } := by
  refine (parseBytes_withParser bs s { s with gaps := g }).trans ?_
  conv => rhs; rw [parseBytes_eq_withParser]
  rfl

/-! ## The invariant of the parser -/

theorem idnChar_bounds {p : Nat} {b : Byte} (h : idnChar p = some b) : 1 ≤ p ∧ p ≤ 4 := by
  unfold idnChar at h
  split at h <;> simp_all

theorem countOfDigit_bounds {b : Byte} {n : Fin 16} (h : countOfDigit b = some n) :
    1 ≤ n.val ∧ n.val ≤ 9 := by
  unfold countOfDigit at h
  split at h
  · cases h
    constructor <;> simp only <;> omega
  · cases h

/-- Storing a hex digit at `POS` adds one to the stored digits. -/
theorem hexPay_store {s t : State} {b : Byte} (hp : HexPay s s.pos) (hb : isHex b = true)
    (ht : t.pay = s.pay.setIfInBounds s.pos b) : HexPay t (s.pos + 1) := by
  intro j h hj
  simp only [ht, Vector.getElem_setIfInBounds]
  split
  · exact hb
  · exact hp j h (by omega)

theorem hexPay_congr {s t : State} {n : Nat} (h : t.pay = s.pay) (hp : HexPay s n) : HexPay t n := by
  intro j hj hn
  simp only [h]
  exact hp j hj hn

theorem pendingOk_of_idle {s : State} (h : s.op = .idle) : PendingOk s := by simp [PendingOk, h]

/-- The abandoned or aborted parser keeps its invariant. -/
theorem ParserInv.toIdle {s : State} (h : ParserInv s) (n : Nat) (hn : n ≤ 18) :
    ParserInv { s with pstate := .idle, pos := n } where
  gate := fun _ => rfl
  addrHex := h.addrHex
  count := h.count
  posBound := hn
  pos := trivial
  pending := by have := h.pending; unfold PendingOk at *; exact this

theorem ParserInv.drop {s : State} (h : ParserInv s) : ParserInv (dropPartial s) :=
  h.toIdle s.pos h.posBound

/-- Entering a state at its first position. -/
theorem ParserInv.enter {s : State} (h : ParserInv s) (ho : s.op = .idle) (p : PState) (n : Nat)
    (hn : n ≤ 18) (hp : PosOk (Machine.enter p n s)) : ParserInv (Machine.enter p n s) where
  gate := fun hne => absurd ho hne
  addrHex := h.addrHex
  count := h.count
  posBound := hn
  pos := hp
  pending := pendingOk_of_idle ho

/-- Resolving a command whose digits are there. -/
theorem ParserInv.resolve {s : State} (h : ParserInv s) (k : Kind)
    (hk : PendingOk (Machine.resolve k s)) : ParserInv (Machine.resolve k s) where
  gate := fun _ => rfl
  addrHex := h.addrHex
  count := h.count
  posBound := h.posBound
  pos := trivial
  pending := hk

theorem hexPay_zero (s : State) : HexPay s 0 := fun _ _ h => absurd h (Nat.not_lt_zero _)

/-- A digit row keeps the invariant, given what the completed command needs. -/
theorem ParserInv.digit {s : State} (h : ParserInv s) (ho : s.op = .idle) (bound : Nat) (k : Kind)
    (b : Byte) (hlt : s.pos < bound) (hb18 : bound ≤ 18) (hex : HexPay s s.pos)
    (hstay : ∀ t : State, t.pstate = s.pstate → t.nlen = s.nlen → t.pos < bound → HexPay t t.pos →
      PosOk t)
    (hdone : ∀ t : State, t.op = k → t.nlen = s.nlen → HexPay t bound → PendingOk t) :
    ParserInv (parseDigit bound k b s) := by
  unfold parseDigit
  split
  · rename_i hb
    have hx : HexPay (storeDigit b s) (s.pos + 1) := hexPay_store hex hb rfl
    split
    · rename_i he
      exact {
        gate := fun _ => rfl
        addrHex := h.addrHex
        count := h.count
        posBound := by simp only [resolve_pos, storeDigit_pos]; omega
        pos := trivial
        pending := hdone _ rfl rfl (he ▸ hexPay_congr rfl hx) }
    · rename_i hne
      exact {
        gate := fun hn => absurd ho hn
        addrHex := h.addrHex
        count := h.count
        posBound := by simp only [storeDigit_pos]; omega
        pos := hstay _ rfl rfl (by simp only [storeDigit_pos]; omega) hx
        pending := pendingOk_of_idle ho }
  · exact h.drop

/-- Every transition of the parser keeps its invariant (R22, R111 corner case 1, R139). -/
theorem parserStep_inv {s : State} (h : ParserInv s) (b : Byte) : ParserInv (parserStep b s) := by
  by_cases ho : s.op = .idle
  swap
  · rwa [parserStep_closed ho]
  have hpos := h.pos
  unfold parserStep
  rw [if_neg (by simp [ho])]
  split
  · exact h.toIdle 0 (by omega)
  unfold parseRow
  unfold PosOk at hpos
  split <;> rename_i hs <;> rw [hs] at hpos <;> dsimp only at hpos
  · unfold parseIdle
    split
    · exact h.enter ho _ _ (by omega) (by simp [PosOk])
    split
    · exact h.resolve _ (by simp [PendingOk])
    split
    · exact h.resolve _ (by simp [PendingOk])
    split
    · exact h.enter ho _ _ (by omega) (by simp [PosOk])
    · exact h
  · unfold parseIdn
    split
    · split
      · exact h.resolve _ (by simp [PendingOk])
      · exact {
          gate := fun hn => absurd ho hn
          addrHex := h.addrHex
          count := h.count
          posBound := by simp only [advance_pos]; omega
          pos := by simp only [PosOk, advance_pstate, hs, advance_pos]; omega
          pending := pendingOk_of_idle ho }
    · exact h.drop
  · unfold parseIndex
    split
    · split
      · exact {
          gate := fun hn => absurd ho hn
          addrHex := h.addrHex
          count := h.count
          posBound := by simp
          pos := by simp [PosOk, hs]
          pending := pendingOk_of_idle ho }
      · exact h.drop
    split
    · split
      · exact h.resolve _ (by simp [PendingOk])
      split
      · exact h.enter ho _ _ (by omega) (by simp [PosOk])
      split
      · exact h.enter ho _ _ (by omega) (by simp [PosOk, hexPay_zero])
      split
      · exact h.enter ho _ _ (by omega) (by simp [PosOk, hexPay_zero])
      split
      · exact h.enter ho _ _ (by omega) (by simp [PosOk, hexPay_zero])
      · exact h.drop
    · exact h.drop
  · unfold parseAddress
    split
    · split
      · rename_i hlt hb
        exact {
          gate := fun hn => absurd ho hn
          addrHex := by
            have := h.addrHex
            simp only [Vector.getElem_setIfInBounds]
            constructor <;> split <;> simp_all
          count := h.count
          posBound := by simp only; omega
          pos := by simp only [PosOk, hs]; omega
          pending := pendingOk_of_idle ho }
      · exact h.drop
    split
    · exact h.enter ho _ _ (by omega) (by simp [PosOk])
    · exact h.resolve _ (by simp [PendingOk])
  · unfold parseLength
    split
    · split
      · rename_i n hn
        have := countOfDigit_bounds hn
        exact {
          gate := fun hn => absurd ho hn
          addrHex := h.addrHex
          count := this.2
          posBound := by simp
          pos := by simp only [PosOk, hs]; omega
          pending := pendingOk_of_idle ho }
      · exact h.drop
    split
    · rename_i h1
      have hn := hpos.2 h1
      split
      · refine h.enter ho _ _ (by omega) ?_
        simp only [PosOk, enter_pstate, enter_nlen, enter_pos]
        exact ⟨hn, by omega, hexPay_zero _⟩
      · exact h.drop
    · exact h.drop
  · have hc := h.count
    obtain ⟨h1, h2, h3⟩ := hpos
    refine h.digit ho _ _ b h2 (by omega) h3 ?_ ?_
    · intro t ht hn hlt hx
      simp only [PosOk, ht, hs, hn]
      exact ⟨h1, hlt, hx⟩
    · intro t ht hn hx
      simp only [PendingOk, ht, hn]
      exact ⟨h1, hx⟩
  all_goals
    refine h.digit ho _ _ b hpos.1 (by omega) hpos.2 ?_ ?_
    · intro t ht _ hlt hx
      simp only [PosOk, ht, hs]
      exact ⟨hlt, hx⟩
    · intro t ht _ hx
      simp only [PendingOk, ht]
      exact hx

/-- Any bytes keep it. -/
theorem parseBytes_inv {s : State} (h : ParserInv s) (bs : List Byte) :
    ParserInv (parseBytes bs s) := by
  induction bs generalizing s with
  | nil => exact h
  | cons b bs ih => exact ih (parserStep_inv h b)

end Sys2Proof.Machine
end

