-- ==== Sys2Proof/Laws/Ops.lean ====
section
/-! SUPPORT. What each operation of the main loop does. `Passes f u` says it once, for every state and
whatever bytes arrive meanwhile: the operation `f` has the effect `u`, and the bytes of its gaps are
parsed in order. From it follow the exact next state where nothing is parsed (`Quiet`), everything the
parser cannot touch (`deviceSide`), and that the parser's invariant is kept. -/
namespace Sys2Proof.Machine

/-! ## Interrupt windows -/

/-- No byte is parsed in a window: the gate is closed, or no byte arrives. -/
def Quiet (s : State) : Prop := s.op ≠ .idle ∨ s.gaps = []

/-- Pass n gaps. -/
def dropGaps (n : Nat) (s : State) : State := { s with gaps := s.gaps.drop n }

theorem Quiet.of_busy {s : State} (h : s.op ≠ .idle) : Quiet s := Or.inl h

theorem Quiet.congr {s t : State} (h : Quiet s) (n : Nat) (ho : t.op = s.op)
    (hg : t.gaps = s.gaps.drop n) : Quiet t := by
  rcases h with h | h
  · exact Or.inl (ho ▸ h)
  · exact Or.inr (by rw [hg, h, List.drop_nil])

/-- `t` with everything of `p` that an interrupt can change: the parser's fields and the gaps. -/
def fromParser (p t : State) : State := { withParser p t with gaps := p.gaps }

theorem fromParser_self (s : State) : fromParser s s = s := rfl

@[simp] theorem parseGaps_gaps (n : Nat) (s : State) : (parseGaps n s).gaps = s.gaps.drop n := rfl

@[simp] theorem parseGaps_zero (s : State) : parseGaps 0 s = s := rfl

/-- What gaps do to the parser is the same whatever the rest of the state holds. -/
theorem parseGaps_fromParser (n : Nat) (p t : State) :
    parseGaps n (fromParser p t) = fromParser (parseGaps n p) t := by
  have h : parseBytes (p.gaps.take n).flatten (fromParser p t) =
      { withParser (parseBytes (p.gaps.take n).flatten p) t with gaps := p.gaps } := by
    rw [← parseBytes_withParser]
    exact parseBytes_gaps _ (withParser p t) p.gaps
  have h1 : parseGaps n (fromParser p t) =
      { parseBytes (p.gaps.take n).flatten (fromParser p t) with gaps := p.gaps.drop n } := rfl
  rw [h1, h]
  rfl

theorem parseGaps_eq_fromParser (n : Nat) (s : State) :
    parseGaps n s = fromParser (parseGaps n s) s := parseGaps_fromParser n s s

/-! The fields no interrupt touches. -/

@[simp] theorem parseGaps_rrb (n : Nat) (s : State) : (parseGaps n s).rrb = s.rrb := by
  rw [parseGaps_eq_fromParser]; rfl
@[simp] theorem parseGaps_testBit (n : Nat) (s : State) : (parseGaps n s).testBit = s.testBit := by
  rw [parseGaps_eq_fromParser]; rfl
@[simp] theorem parseGaps_buf (n : Nat) (s : State) : (parseGaps n s).buf = s.buf := by
  rw [parseGaps_eq_fromParser]; rfl
@[simp] theorem parseGaps_rst (n : Nat) (s : State) : (parseGaps n s).rst = s.rst := by
  rw [parseGaps_eq_fromParser]; rfl
@[simp] theorem parseGaps_ioup (n : Nat) (s : State) : (parseGaps n s).ioup = s.ioup := by
  rw [parseGaps_eq_fromParser]; rfl
@[simp] theorem parseGaps_cs (n : Nat) (s : State) : (parseGaps n s).cs = s.cs := by
  rw [parseGaps_eq_fromParser]; rfl
@[simp] theorem parseGaps_out (n : Nat) (s : State) : (parseGaps n s).out = s.out := by
  rw [parseGaps_eq_fromParser]; rfl
@[simp] theorem parseGaps_dev (n : Nat) (s : State) : (parseGaps n s).dev = s.dev := by
  rw [parseGaps_eq_fromParser]; rfl
@[simp] theorem parseGaps_bootDue (n : Nat) (s : State) : (parseGaps n s).bootDue = s.bootDue := by
  rw [parseGaps_eq_fromParser]; rfl
@[simp] theorem parseGaps_calls (n : Nat) (s : State) : (parseGaps n s).calls = s.calls := by
  rw [parseGaps_eq_fromParser]; rfl
@[simp] theorem parseGaps_cfg (n : Nat) (s : State) : (parseGaps n s).cfg = s.cfg := by
  rw [parseGaps_eq_fromParser]; rfl
@[simp] theorem parseGaps_input (n : Nat) (s : State) : (parseGaps n s).input = s.input := by
  rw [parseGaps_eq_fromParser]; rfl
@[simp] theorem parseGaps_answers (n : Nat) (s : State) : (parseGaps n s).answers = s.answers := by
  rw [parseGaps_eq_fromParser]; rfl
@[simp] theorem parseGaps_draws (n : Nat) (s : State) : (parseGaps n s).draws = s.draws := by
  rw [parseGaps_eq_fromParser]; rfl

@[simp] theorem interrupted_rrb (s t : State) : (interrupted s t).rrb = t.rrb :=
  parseGaps_rrb _ _
@[simp] theorem interrupted_testBit (s t : State) : (interrupted s t).testBit = t.testBit :=
  parseGaps_testBit _ _
@[simp] theorem interrupted_buf (s t : State) : (interrupted s t).buf = t.buf :=
  parseGaps_buf _ _
@[simp] theorem interrupted_rst (s t : State) : (interrupted s t).rst = t.rst :=
  parseGaps_rst _ _
@[simp] theorem interrupted_ioup (s t : State) : (interrupted s t).ioup = t.ioup :=
  parseGaps_ioup _ _
@[simp] theorem interrupted_cs (s t : State) : (interrupted s t).cs = t.cs :=
  parseGaps_cs _ _
@[simp] theorem interrupted_out (s t : State) : (interrupted s t).out = t.out :=
  parseGaps_out _ _
@[simp] theorem interrupted_dev (s t : State) : (interrupted s t).dev = t.dev :=
  parseGaps_dev _ _
@[simp] theorem interrupted_bootDue (s t : State) : (interrupted s t).bootDue = t.bootDue :=
  parseGaps_bootDue _ _
@[simp] theorem interrupted_calls (s t : State) : (interrupted s t).calls = t.calls :=
  parseGaps_calls _ _
@[simp] theorem interrupted_cfg (s t : State) : (interrupted s t).cfg = t.cfg :=
  parseGaps_cfg _ _
@[simp] theorem interrupted_input (s t : State) : (interrupted s t).input = t.input :=
  parseGaps_input _ _
@[simp] theorem interrupted_answers (s t : State) : (interrupted s t).answers = t.answers :=
  parseGaps_answers _ _
@[simp] theorem interrupted_draws (s t : State) : (interrupted s t).draws = t.draws :=
  parseGaps_draws _ _

theorem parseGaps_add (m n : Nat) (s : State) :
    parseGaps m (parseGaps n s) = parseGaps (n + m) s := by
  simp only [parseGaps, parseBytes_gaps, List.take_add, List.flatten_append, parseBytes_append,
    List.drop_drop]

/-- A window is one gap (R10, R242 (3)). -/
theorem window_eq (s : State) : window s = parseGaps 1 s := by
  unfold window
  split
  · rename_i hg
    simp only [parseGaps, hg, List.take_nil, List.flatten_nil, parseBytes_nil, List.drop_nil]
    rw [← hg]
  · rename_i g rest hg
    rw [parseBytes_gaps]
    simp [parseGaps, hg]

/-- Gaps in which nothing is parsed only pass (R111). -/
theorem parseGaps_quiet {s : State} (h : Quiet s) (n : Nat) : parseGaps n s = dropGaps n s := by
  unfold parseGaps
  rcases h with h | h
  · rw [parseBytes_closed h]
    rfl
  · simp [h, dropGaps]

/-- An interrupted piece of work that is quiet is the work itself. -/
theorem interrupted_quiet {t : State} (h : Quiet t) (s : State) :
    interrupted s t = dropGaps (gapsBetween s t) t := parseGaps_quiet h _

@[simp] theorem deviceSide_parseGaps (n : Nat) (s : State) :
    deviceSide (parseGaps n s) = deviceSide s := by
  rw [parseGaps_eq_fromParser]
  rfl

@[simp] theorem deviceSide_interrupted (s t : State) :
    deviceSide (interrupted s t) = deviceSide t := deviceSide_parseGaps _ _

/-! ## Work of the main loop, interrupted -/

/-- The traces only grow. -/
def Grows (s t : State) : Prop := s.dev.length ≤ t.dev.length ∧ s.out.length ≤ t.out.length

theorem Grows.refl (s : State) : Grows s s := ⟨Nat.le_refl _, Nat.le_refl _⟩

theorem Grows.trans {s t u : State} (h : Grows s t) (h' : Grows t u) : Grows s u :=
  ⟨h.1.trans h'.1, h.2.trans h'.2⟩

/-- `f` is the work whose effect is `u`: the bytes that arrive meanwhile are parsed, in order, and
touch nothing else; and `u` neither reads nor writes what an interrupt can change. -/
structure Passes (f u : State → State) : Prop where
  eq : ∀ s, f s = interrupted s (u s)
  free : ∀ p t, u (fromParser p t) = fromParser p (u t)
  grows : ∀ s, Grows s (u s)

variable {f g u v : State → State}

theorem Passes.congr (h : Passes f u) (he : ∀ s, u s = v s) : Passes f v := by
  have : u = v := funext he
  exact this ▸ h

theorem Passes.self (h : Passes f u) (s : State) : u s = fromParser s (u s) := h.free s s

theorem Passes.parseGaps (h : Passes f u) (n : Nat) (t : State) :
    u (Machine.parseGaps n t) = Machine.parseGaps n (u t) := by
  rw [parseGaps_eq_fromParser, h.free, ← parseGaps_fromParser, ← h.self]

/-- Work goes on from an interrupted state. -/
theorem Passes.step (h : Passes f u) {s t : State} (hg : Grows s t) :
    f (interrupted s t) = interrupted s (u t) := by
  have ht := h.grows t
  have hn : gapsBetween (interrupted s t) (u (interrupted s t)) = gapsBetween t (u t) := by
    unfold interrupted
    simp only [gapsBetween, h.parseGaps, parseGaps_dev, parseGaps_out]
  have hs : gapsBetween s t + gapsBetween t (u t) = gapsBetween s (u t) := by
    simp only [gapsBetween, Grows] at *
    omega
  rw [h.eq]
  unfold interrupted at hn ⊢
  rw [hn, h.parseGaps, parseGaps_add, hs]

/-- One piece of work after another. -/
theorem Passes.comp (hg : Passes g v) (hf : Passes f u) :
    Passes (fun s => g (f s)) (fun s => v (u s)) where
  eq := fun s => by rw [hf.eq s, hg.step (hf.grows s)]
  free := fun p t => by rw [hf.free, hg.free]
  grows := fun s => (hf.grows s).trans (hg.grows _)

/-- An update with no event and no character. -/
theorem Passes.update (free : ∀ p t, u (fromParser p t) = fromParser p (u t))
    (hd : ∀ s, (u s).dev = s.dev) (ho : ∀ s, (u s).out = s.out) : Passes u u where
  eq := fun s => by simp [interrupted, gapsBetween, hd, ho]
  free := free
  grows := fun s => by simp [Grows, hd, ho]

theorem Passes.emit (e : DevEvent) :
    Passes (Machine.emit e) (fun s => { s with dev := s.dev ++ [e] }) where
  eq := fun s => by simp [Machine.emit, window_eq, interrupted, gapsBetween]
  free := fun _ _ => rfl
  grows := fun s => by simp [Grows]

theorem Passes.putChar (c : Byte) : Passes (Machine.putChar c) (afterText [c]) where
  eq := fun s => by simp [Machine.putChar, window_eq, interrupted, gapsBetween, afterText]
  free := fun _ _ => rfl
  grows := fun s => by simp [Grows, afterText]

/-- An event and its settle delay. -/
theorem Passes.settled (e : DevEvent) :
    Passes (fun s => settle (Machine.emit e s)) (fun s => { s with dev := s.dev ++ spaced [e] }) :=
  ((Passes.emit .settle).comp (Passes.emit e)).congr fun s => by simp [spaced]

/-- A line or bus event with the update that goes before it. -/
theorem Passes.event (e : DevEvent) (free : ∀ p t, u (fromParser p t) = fromParser p (u t))
    (hd : ∀ s, (u s).dev = s.dev) (ho : ∀ s, (u s).out = s.out) :
    Passes (fun s => settle (Machine.emit e (u s)))
      (fun s => { u s with dev := s.dev ++ spaced [e] }) :=
  ((Passes.settled e).comp (Passes.update free hd ho)).congr fun s => by simp [hd]

/-- Whatever interrupts the work, everything the parser cannot touch is as the work leaves it. -/
theorem Passes.deviceSide (h : Passes f u) (s : State) :
    deviceSide (f s) = u (deviceSide s) := by
  rw [h.eq, deviceSide_interrupted]
  exact (h.free (Machine.deviceSide s) s).symm

/-- Work that is not interrupted. -/
theorem Passes.quiet (h : Passes f u) {s : State} (hq : Quiet s) :
    f s = dropGaps (gapsBetween s (u s)) (u s) := by
  rw [h.eq]
  refine interrupted_quiet (hq.congr 0 ?_ ?_) s <;> rw [h.self] <;> rfl

@[simp] theorem spaced_nil : spaced [] = [] := rfl

theorem spaced_append (es fs : List DevEvent) : spaced (es ++ fs) = spaced es ++ spaced fs := by
  simp [spaced]

theorem spaced_cons (e : DevEvent) (es : List DevEvent) :
    spaced (e :: es) = spaced [e] ++ spaced es := by simp [spaced]

@[simp] theorem spaced_length (es : List DevEvent) : (spaced es).length = 2 * es.length := by
  induction es with
  | nil => rfl
  | cons e es ih =>
    rw [spaced_cons, List.length_append, ih]
    simp only [spaced, List.flatMap_cons, List.flatMap_nil, List.append_nil, List.length_cons,
      List.length_nil]
    omega

/-! ## The primitives -/

theorem passes_rstHigh :
    Passes rstHigh (fun s => { s with rst := .high, dev := s.dev ++ spaced [.rstHigh] }) :=
  Passes.event (u := fun s => { s with rst := .high }) _ (fun _ _ => rfl) (fun _ => rfl) fun _ => rfl

theorem passes_rstLow :
    Passes rstLow (fun s => { s with rst := .low, dev := s.dev ++ spaced [.rstLow] }) :=
  Passes.event (u := fun s => { s with rst := .low }) _ (fun _ _ => rfl) (fun _ => rfl) fun _ => rfl

theorem passes_csAssert (k : Fin 4) :
    Passes (csAssert k)
      (fun s => { s with cs := s.cs.set k true, dev := s.dev ++ spaced [.csAssert k] }) :=
  Passes.event (u := fun s => { s with cs := s.cs.set k true }) _ (fun _ _ => rfl) (fun _ => rfl)
    fun _ => rfl

theorem passes_csDeassert (k : Fin 4) :
    Passes (csDeassert k)
      (fun s => { s with cs := s.cs.set k false, dev := s.dev ++ spaced [.csDeassert k] }) :=
  Passes.event (u := fun s => { s with cs := s.cs.set k false }) _ (fun _ _ => rfl) (fun _ => rfl)
    fun _ => rfl

theorem passes_ioupHigh :
    Passes ioupHigh (fun s => { s with ioup := .high, dev := s.dev ++ spaced [.ioupHigh] }) :=
  Passes.event (u := fun s => { s with ioup := .high }) _ (fun _ _ => rfl) (fun _ => rfl) fun _ => rfl

theorem passes_ioupLow :
    Passes ioupLow (fun s => { s with ioup := .low, dev := s.dev ++ spaced [.ioupLow] }) :=
  Passes.event (u := fun s => { s with ioup := .low }) _ (fun _ _ => rfl) (fun _ => rfl) fun _ => rfl

/-- One byte exchanged; the captured byte is the device's next answer (R201). -/
theorem passes_spiShift (o : Byte) :
    Passes (spiShift o)
      (fun s => { s with draws := s.draws + 1, dev := s.dev ++ spaced [.shift o (nextAnswer s)] }) where
  eq := fun s => (Passes.event (u := fun s => { s with draws := s.draws + 1 }) _ (fun _ _ => rfl)
    (fun _ => rfl) fun _ => rfl).eq s
  free := fun _ _ => rfl
  grows := fun s => by simp [Grows]

/-! ## Printing -/

/-- Printing a text appends its characters to `OUT` (R9). -/
theorem passes_print (cs : List Byte) : Passes (print cs) (afterText cs) := by
  induction cs with
  | nil =>
    exact (Passes.update (u := id) (fun _ _ => rfl) (fun _ => rfl) fun _ => rfl).congr fun s => by
      simp [afterText]
  | cons c cs ih => exact (ih.comp (Passes.putChar c)).congr fun s => by simp [afterText]

theorem passes_printLine (cs : List Byte) : Passes (printLine cs) (afterText (line cs)) :=
  passes_print _

theorem printLine_eq {s : State} (h : Quiet s) (cs : List Byte) :
    printLine cs s = dropGaps (cs.length + 1) (afterText (line cs) s) := by
  rw [(passes_printLine cs).quiet h]
  simp [gapsBetween, line]

/-- The epilogue prints `Done` and reopens the mailbox (R162). -/
theorem epilogue_eq {s : State} (h : Quiet s) : epilogue s = dropGaps 5 (afterDone s) := by
  unfold epilogue
  rw [printLine_eq h]
  rfl

/-! ## Shifting -/

@[simp] theorem captured_zero (ans : List Byte) (n : Nat) : captured ans n 0 = [] := rfl
@[simp] theorem captured_succ (ans : List Byte) (n m : Nat) :
    captured ans n (m + 1) = answerAt ans n :: captured ans (n + 1) m := rfl

@[simp] theorem captured_length (ans : List Byte) (n m : Nat) : (captured ans n m).length = m := by
  induction m generalizing n with
  | zero => rfl
  | succ m ih => simp [ih]

@[simp] theorem shifts_nil (ans : List Byte) (n : Nat) : shifts [] ans n = [] := rfl

@[simp] theorem shifts_cons (o : Byte) (os ans : List Byte) (n : Nat) :
    shifts (o :: os) ans n = .shift o (answerAt ans n) :: shifts os ans (n + 1) := by
  simp [shifts]

@[simp] theorem shifts_length (os ans : List Byte) (n : Nat) : (shifts os ans n).length = os.length := by
  simp [shifts]

/-- Bytes shifted out (R203). -/
theorem passes_shiftOut (os : List Byte) :
    Passes (shiftOut os)
      (fun s => { s with draws := s.draws + os.length,
                         dev := s.dev ++ spaced (shifts os s.answers s.draws) }) := by
  induction os with
  | nil =>
    exact (Passes.update (u := id) (fun _ _ => rfl) (fun _ => rfl) fun _ => rfl).congr fun s => by
      simp
  | cons o os ih =>
    refine (ih.comp (passes_spiShift o)).congr fun s => ?_
    simp [spaced, nextAnswer, Nat.add_assoc, Nat.add_comm 1]

/-- One byte captured into element i of `RRB` (R204). -/
theorem passes_captureOne (i : Nat) :
    Passes
      (fun s => { spiShift 0x00 s with
        rrb := (spiShift 0x00 s).rrb.setIfInBounds i (nextAnswer s) })
      (fun s => { s with draws := s.draws + 1, rrb := s.rrb.setIfInBounds i (nextAnswer s),
                         dev := s.dev ++ spaced [.shift 0x00 (nextAnswer s)] }) where
  eq := fun s => by
    have hx := (Passes.update (u := fun t => { t with rrb := t.rrb.setIfInBounds i (nextAnswer s) })
      (fun _ _ => rfl) (fun _ => rfl) fun _ => rfl).step ((passes_spiShift 0x00).grows s)
    rw [(passes_spiShift 0x00).eq s]
    exact hx
  free := fun _ _ => rfl
  grows := fun s => by simp [Grows]

/-- Bytes captured (R204). -/
theorem passes_capture (i n : Nat) :
    Passes (capture i n)
      (fun s => { s with draws := s.draws + n,
                         rrb := putBytes s.rrb i (captured s.answers s.draws n),
                         dev := s.dev ++ spaced (shifts (List.replicate n 0) s.answers s.draws) }) := by
  induction n generalizing i with
  | zero =>
    exact (Passes.update (u := id) (fun _ _ => rfl) (fun _ => rfl) fun _ => rfl).congr fun s => by
      simp [putBytes]
  | succ n ih =>
    refine ((ih (i + 1)).comp (passes_captureOne i)).congr fun s => ?_
    simp [putBytes, spaced, nextAnswer, List.replicate_succ, Nat.add_assoc, Nat.add_comm 1]

/-! ## Transfers -/

/-- The strobe of the initialisation sequence (R206). -/
theorem passes_strobe : Passes strobe afterStrobe :=
  (passes_rstLow.comp passes_rstHigh).congr fun s => by simp [afterStrobe, strobeEvents, spaced]

/-- A complete write transfer (R203). -/
theorem passes_writeTransfer (k : Fin 4) (addr : Byte) (data : List Byte) :
    Passes (writeTransfer k addr data) (afterWrite k addr data) := by
  refine (passes_ioupLow.comp (passes_ioupHigh.comp ((passes_csDeassert k).comp
    ((passes_shiftOut (addr :: data)).comp ((passes_csAssert k).comp passes_strobe))))).congr
      fun s => ?_
  simp [afterStrobe, afterWrite, writeEvents, strobeEvents, spaced]

/-- A complete read transfer (R204). -/
theorem passes_readTransfer (k : Fin 4) (addr : Byte) (n : Nat) :
    Passes (readTransfer k addr n) (afterRead k addr n) := by
  refine ((passes_csDeassert k).comp ((passes_capture 0 n).comp
    ((passes_spiShift (addr ||| 0x80)).comp (passes_csAssert k)))).congr fun s => ?_
  simp [afterRead, readEvents, spaced, nextAnswer, Nat.add_assoc, Nat.add_comm 1]

theorem strobe_eq {s : State} (h : Quiet s) : strobe s = dropGaps 4 (afterStrobe s) := by
  rw [passes_strobe.quiet h]
  simp [gapsBetween, strobeEvents]

theorem writeTransfer_eq {s : State} (h : Quiet s) (k : Fin 4) (addr : Byte) (data : List Byte) :
    writeTransfer k addr data s = dropGaps (2 * (data.length + 7)) (afterWrite k addr data s) := by
  rw [(passes_writeTransfer k addr data).quiet h]
  congr 1
  simp [gapsBetween, writeEvents]

theorem readTransfer_eq {s : State} (h : Quiet s) (k : Fin 4) (addr : Byte) (n : Nat) :
    readTransfer k addr n s = dropGaps (2 * (n + 3)) (afterRead k addr n s) := by
  rw [(passes_readTransfer k addr n).quiet h]
  congr 1
  simp [gapsBetween, readEvents]

theorem deviceSide_strobe (s : State) : deviceSide (strobe s) = afterStrobe (deviceSide s) :=
  passes_strobe.deviceSide s

theorem deviceSide_writeTransfer (k : Fin 4) (addr : Byte) (data : List Byte) (s : State) :
    deviceSide (writeTransfer k addr data s) = afterWrite k addr data (deviceSide s) :=
  (passes_writeTransfer k addr data).deviceSide s

theorem deviceSide_readTransfer (k : Fin 4) (addr : Byte) (n : Nat) (s : State) :
    deviceSide (readTransfer k addr n s) = afterRead k addr n (deviceSide s) :=
  (passes_readTransfer k addr n).deviceSide s

theorem deviceSide_printLine (cs : List Byte) (s : State) :
    deviceSide (printLine cs s) = afterText (line cs) (deviceSide s) :=
  (passes_printLine cs).deviceSide s

/-! ## Calls of the Transfer Protocol -/

/-- `DevWrite` within its preconditions (R200, R203). -/
theorem devWrite_eq {s : State} (h : Quiet s) {slot : Fin 8} (hk : slot.val < numSlots) {addr : Byte}
    {data : List Byte} (hl : 0 < s.cfg.regLen addr) (hd : s.cfg.regLen addr ≤ data.length) :
    devWrite slot addr data s =
      .next (dropGaps (2 * (s.cfg.regLen addr + 7))
        (afterWrite ⟨slot.val, hk⟩ addr (data.take (s.cfg.regLen addr)) s)) := by
  unfold devWrite
  rw [dif_pos hk, if_neg (by omega), if_neg (by omega), writeTransfer_eq h]
  simp [Nat.min_eq_left hd]

/-- `DevWrite` within its preconditions, whatever bytes arrive meanwhile (R203, R271). -/
theorem devWrite_interrupted {slot : Fin 8} (hk : slot.val < numSlots) {addr : Byte}
    {data : List Byte} {s : State} (hl : 0 < s.cfg.regLen addr)
    (hd : s.cfg.regLen addr ≤ data.length) :
    devWrite slot addr data s =
      .next (interrupted s (afterWrite ⟨slot.val, hk⟩ addr (data.take (s.cfg.regLen addr)) s)) := by
  unfold devWrite
  rw [dif_pos hk, if_neg (by omega), if_neg (by omega), (passes_writeTransfer _ _ _).eq]

/-- `DevRead` within its preconditions, whatever bytes arrive meanwhile (R204, R205, R271). -/
theorem devRead_interrupted {slot : Fin 8} (hk : slot.val < numSlots) {addr : Byte}
    {announce : Bool} {s : State} (hl : 0 < s.cfg.regLen addr) :
    devRead slot addr announce s =
      .next (interrupted s
        (let t := afterRead ⟨slot.val, hk⟩ addr (s.cfg.regLen addr) s
         if announce then
           afterText (line (announceText (t.rrb.toList.take (s.cfg.regLen addr)))) t
         else t)) := by
  unfold devRead
  rw [dif_pos hk, if_neg (by omega), (passes_readTransfer _ _ _).eq]
  cases announce
  · rfl
  · simp only [if_true, announceRead]
    rw [(passes_printLine _).step ((passes_readTransfer _ _ _).grows s)]
    simp only [interrupted, parseGaps_rrb]

/-- A silent `DevRead` within its preconditions (R200, R204). -/
theorem devRead_silent_eq {s : State} (h : Quiet s) {slot : Fin 8} (hk : slot.val < numSlots)
    {addr : Byte} (hl : 0 < s.cfg.regLen addr) :
    devRead slot addr false s =
      .next (dropGaps (2 * (s.cfg.regLen addr + 3))
        (afterRead ⟨slot.val, hk⟩ addr (s.cfg.regLen addr) s)) := by
  unfold devRead
  rw [dif_pos hk, if_neg (by omega), readTransfer_eq h]
  rfl

/-- Everything `DevWrite` can do when it answers a next state. -/
theorem devWrite_next {s t : State} {slot : Fin 8} {addr : Byte} {data : List Byte}
    (h : devWrite slot addr data s = .next t) :
    ∃ hk : slot.val < numSlots, 0 < s.cfg.regLen addr ∧ s.cfg.regLen addr ≤ data.length ∧
      t = writeTransfer ⟨slot.val, hk⟩ addr (data.take (s.cfg.regLen addr)) s := by
  unfold devWrite at h
  split at h
  · rename_i hk
    split at h
    · cases h
    split at h
    · cases h
    · cases h
      exact ⟨hk, by omega, by omega, rfl⟩
  · cases h

/-- Everything `DevRead` can do when it answers a next state. -/
theorem devRead_next {s t : State} {slot : Fin 8} {addr : Byte} {announce : Bool}
    (h : devRead slot addr announce s = .next t) :
    ∃ hk : slot.val < numSlots, 0 < s.cfg.regLen addr ∧
      t = if announce then
            announceRead (s.cfg.regLen addr)
              (readTransfer ⟨slot.val, hk⟩ addr (s.cfg.regLen addr) s)
          else readTransfer ⟨slot.val, hk⟩ addr (s.cfg.regLen addr) s := by
  unfold devRead at h
  split at h
  · rename_i hk
    split at h
    · cases h
    · cases h
      exact ⟨hk, by omega, rfl⟩
  · cases h

/-- A reported error prints its line and nothing else (R9, R230). -/
theorem raise_eq {s : State} (h : Quiet s) {e : ErrCause} {cs : List Byte}
    (hr : e.report = some cs) :
    raise e s = .next (dropGaps (cs.length + 1) (afterText (line cs) s)) := by
  unfold raise
  rw [hr]
  dsimp only
  rw [printLine_eq h]

/-- The epilogue after a command's own next state (R162). -/
theorem complete_eq {s : State} (h : Quiet s) :
    complete (.next s) = .next (dropGaps 5 (afterDone s)) := by rw [complete_next, epilogue_eq h]

/-! ## Byte arrays -/

theorem putBytes_cons (v : Vector Byte 8) (i : Nat) (b : Byte) (bs : List Byte) :
    putBytes v i (b :: bs) = putBytes (v.setIfInBounds i b) (i + 1) bs := rfl

/-- What `putBytes` writes, element by element. -/
theorem getElem_putBytes (v : Vector Byte 8) (i : Nat) (bs : List Byte) (j : Nat) (hj : j < 8) :
    (putBytes v i bs)[j] = if h : i ≤ j ∧ j - i < bs.length then bs[j - i]'h.2 else v[j] := by
  induction bs generalizing v i with
  | nil => simp [putBytes]
  | cons b bs ih =>
    rw [putBytes_cons, ih]
    by_cases h1 : i = j
    · subst h1
      simp
    · by_cases h2 : i ≤ j
      · have h3 : j - i = (j - (i + 1)) + 1 := by omega
        have h4 : i + 1 ≤ j := by omega
        simp only [List.length_cons, h2, h4, true_and, h3, Nat.add_lt_add_iff_right]
        split
        · simp
        · simp [h1]
      · have h4 : ¬ i + 1 ≤ j := by omega
        simp [h2, h4, h1]

/-- A second list of at least the same length hides the first. -/
theorem putBytes_putBytes (v : Vector Byte 8) (as bs : List Byte) (h : as.length ≤ bs.length) :
    putBytes (putBytes v 0 as) 0 bs = putBytes v 0 bs := by
  ext j hj
  simp only [getElem_putBytes]
  split
  · rfl
  · split
    · omega
    · rfl

/-- The first elements after writing from element 0 on. -/
theorem take_putBytes_zero (v : Vector Byte 8) (bs : List Byte) (n : Nat) (hn : n ≤ bs.length)
    (h8 : n ≤ 8) : (putBytes v 0 bs).toList.take n = bs.take n := by
  apply List.ext_getElem
  · simp only [List.length_take, Vector.length_toList]
    omega
  · intro j h1 h2
    simp only [List.length_take, Vector.length_toList] at h1
    have hj : 0 ≤ j ∧ j - 0 < bs.length := ⟨Nat.zero_le _, by omega⟩
    simp only [List.getElem_take, Vector.getElem_toList, getElem_putBytes, dif_pos hj]
    rfl

/-! ## The parser's invariant through the operations -/

/-- The invariant of the parser reads only the parser's fields. -/
theorem ParserInv.congr {s t : State} (h : ParserInv s) (hp : t.pstate = s.pstate)
    (hn : t.pos = s.pos) (ho : t.op = s.op) (ha : t.addrc = s.addrc) (hl : t.nlen = s.nlen)
    (hy : t.pay = s.pay) : ParserInv t where
  gate := by rw [ho, hp]; exact h.gate
  addrHex := by simp only [ha]; exact h.addrHex
  count := by rw [hl]; exact h.count
  posBound := by rw [hn]; exact h.posBound
  pos := by have := h.pos; simp only [PosOk, HexPay, hp, hn, hl, hy] at *; exact this
  pending := by have := h.pending; simp only [PendingOk, HexPay, ho, hl, hy] at *; exact this

theorem ParserInv.parseGaps {s : State} (h : ParserInv s) (n : Nat) :
    ParserInv (Machine.parseGaps n s) :=
  (parseBytes_inv h _).congr rfl rfl rfl rfl rfl rfl

/-- Work of the main loop, whatever interrupts it, keeps the parser's invariant. -/
theorem ParserInv.passes {s : State} (h : ParserInv s) (hp : Passes f u) : ParserInv (f s) := by
  rw [hp.eq, hp.self]
  have hu : ParserInv (fromParser s (u s)) := h.congr rfl rfl rfl rfl rfl rfl
  exact hu.parseGaps _

theorem ParserInv.strobe {s : State} (h : ParserInv s) : ParserInv (strobe s) :=
  h.passes passes_strobe

theorem ParserInv.writeTransfer {s : State} (h : ParserInv s) (k : Fin 4) (addr : Byte)
    (data : List Byte) : ParserInv (writeTransfer k addr data s) :=
  h.passes (passes_writeTransfer k addr data)

theorem ParserInv.readTransfer {s : State} (h : ParserInv s) (k : Fin 4) (addr : Byte) (n : Nat) :
    ParserInv (readTransfer k addr n s) :=
  h.passes (passes_readTransfer k addr n)

theorem ParserInv.print {s : State} (h : ParserInv s) (cs : List Byte) : ParserInv (print cs s) :=
  h.passes (passes_print cs)

/-! ## The discipline of the lines -/

theorem busRun_append (es fs : List DevEvent) (v : BusView) :
    busRun (es ++ fs) v = (busRun es v).bind (busRun fs) := by
  induction es generalizing v with
  | nil => rfl
  | cons e es ih =>
    simp only [List.cons_append, busRun]
    split
    · exact ih _
    · rfl

theorem isSpaced_append {es fs : List DevEvent} (h : isSpaced es = true) :
    isSpaced (es ++ fs) = isSpaced fs := by
  induction es using isSpaced.induct with
  | case1 => rfl
  | case2 e => simp [isSpaced] at h
  | case3 e d rest ih =>
    simp only [isSpaced, Bool.and_eq_true] at h
    simp_all [isSpaced]

/-- A list of line and bus events, spaced, is spaced. -/
theorem isSpaced_spaced {es : List DevEvent} (h : ∀ e ∈ es, e ≠ .settle) :
    isSpaced (spaced es) = true := by
  induction es with
  | nil => rfl
  | cons e es ih =>
    have h1 : spaced (e :: es) = e :: .settle :: spaced es := rfl
    rw [h1]
    simp [isSpaced, h e (by simp), ih (fun d hd => h d (by simp [hd]))]

theorem shifts_ne_settle {outs ans : List Byte} {n : Nat} : ∀ e ∈ shifts outs ans n, e ≠ .settle := by
  induction outs generalizing n with
  | nil => simp
  | cons o os ih =>
    intro e he
    rw [shifts_cons, List.mem_cons] at he
    rcases he with rfl | he
    · simp
    · exact ih e he

/-- Shifting under one chip-select leaves the lines as they are. -/
theorem busRun_shifts (k : Fin 4) (outs ans : List Byte) (n : Nat) (rest : List DevEvent) :
    busRun (spaced (shifts outs ans n) ++ rest) { rst := .low, ioup := .low, sel := some k } =
      busRun rest { rst := .low, ioup := .low, sel := some k } := by
  induction outs generalizing n with
  | nil => rfl
  | cons o os ih =>
    have h1 : spaced (shifts (o :: os) ans n) =
        .shift o (answerAt ans n) :: .settle :: spaced (shifts os ans (n + 1)) := by
      rw [shifts_cons]
      rfl
    rw [h1]
    simp only [List.cons_append, busRun, busStep]
    simpa using ih (n + 1)

/-- A write transfer runs from rest to rest (R210). -/
theorem busRun_writeEvents (k : Fin 4) (addr : Byte) (data ans : List Byte) (n : Nat) :
    busRun (writeEvents k addr data ans n) .rest = some .rest := by
  unfold writeEvents
  rw [spaced_append, spaced_append, List.append_assoc]
  have h1 : ∀ rest, busRun (spaced [.rstHigh, .rstLow, .csAssert k] ++ rest) .rest =
      busRun rest { rst := .low, ioup := .low, sel := some k } := by
    intro rest
    simp [spaced, busRun, busStep, BusView.rest]
  rw [h1, busRun_shifts]
  simp [spaced, busRun, busStep, BusView.rest]

/-- A read transfer runs from rest to rest (R210). -/
theorem busRun_readEvents (k : Fin 4) (addr : Byte) (m : Nat) (ans : List Byte) (n : Nat) :
    busRun (readEvents k addr m ans n) .rest = some .rest := by
  unfold readEvents
  rw [spaced_append, spaced_append, List.append_assoc]
  have h1 : ∀ rest, busRun (spaced [.csAssert k] ++ rest) .rest =
      busRun rest { rst := .low, ioup := .low, sel := some k } := by
    intro rest
    simp [spaced, busRun, busStep, BusView.rest]
  rw [h1, busRun_shifts]
  simp [spaced, busRun, busStep, BusView.rest]

theorem isSpaced_writeEvents (k : Fin 4) (addr : Byte) (data ans : List Byte) (n : Nat) :
    isSpaced (writeEvents k addr data ans n) = true := by
  apply isSpaced_spaced
  intro e he
  simp only [List.mem_append, List.mem_cons, List.not_mem_nil, or_false] at he
  rcases he with (he | he) | he
  · rcases he with rfl | rfl | rfl <;> simp
  · exact shifts_ne_settle e he
  · rcases he with rfl | rfl | rfl <;> simp

theorem isSpaced_readEvents (k : Fin 4) (addr : Byte) (m : Nat) (ans : List Byte) (n : Nat) :
    isSpaced (readEvents k addr m ans n) = true := by
  apply isSpaced_spaced
  intro e he
  simp only [List.mem_append, List.mem_singleton] at he
  rcases he with (rfl | he) | rfl
  · simp
  · exact shifts_ne_settle e he
  · simp

/-- Releasing a chip-select of lines at rest leaves them at rest. -/
theorem restCs_set (k : Fin 4) :
    (Vector.replicate 4 false).set k false = (Vector.replicate 4 false : Vector Bool 4) := by
  revert k
  decide

/-- The bus invariant through a transfer's effect. -/
theorem BusInv.afterWrite {s : State} (h : BusInv s) (k : Fin 4) (addr : Byte) (data : List Byte) :
    BusInv (afterWrite k addr data s) where
  rst := rfl
  ioup := rfl
  cs := by simp only [Machine.afterWrite, h.cs, restCs_set]
  trace := by simp [Machine.afterWrite, busRun_append, h.trace, busRun_writeEvents]
  settled := by simp [Machine.afterWrite, isSpaced_append h.settled, isSpaced_writeEvents]

theorem BusInv.afterRead {s : State} (h : BusInv s) (k : Fin 4) (addr : Byte) (m : Nat) :
    BusInv (afterRead k addr m s) where
  rst := h.rst
  ioup := h.ioup
  cs := by simp only [Machine.afterRead, h.cs, restCs_set]
  trace := by simp [Machine.afterRead, busRun_append, h.trace, busRun_readEvents]
  settled := by simp [Machine.afterRead, isSpaced_append h.settled, isSpaced_readEvents]

theorem BusInv.afterStrobe {s : State} (h : BusInv s) : BusInv (afterStrobe s) where
  rst := rfl
  ioup := h.ioup
  cs := h.cs
  trace := by
    simp only [Machine.afterStrobe, busRun_append, h.trace]
    decide
  settled := by
    simp [Machine.afterStrobe, isSpaced_append h.settled, strobeEvents, spaced, isSpaced]

/-- The bus invariant reads only what the parser cannot touch. -/
theorem BusInv.congr {s t : State} (h : BusInv s) (hd : deviceSide t = deviceSide s) : BusInv t := by
  have hdev : (deviceSide t).dev = (deviceSide s).dev := by rw [hd]
  have hrst : (deviceSide t).rst = (deviceSide s).rst := by rw [hd]
  have hio : (deviceSide t).ioup = (deviceSide s).ioup := by rw [hd]
  have hcs : (deviceSide t).cs = (deviceSide s).cs := by rw [hd]
  exact {
    rst := hrst.trans h.rst
    ioup := hio.trans h.ioup
    cs := hcs.trans h.cs
    trace := (show t.dev = s.dev from hdev) ▸ h.trace
    settled := (show t.dev = s.dev from hdev) ▸ h.settled }

end Sys2Proof.Machine
end

