-- ==== Sys2Proof/Laws/Step.lean ====
section
/-! SUPPORT. What a step can do: one equation for each shape of the coming event, and the case split
over all of them (00_scope.md R10, 41_dispatcher.md R160, 70_reset_and_hazards.md R271). -/
namespace Sys2Proof.Machine

/-! ## The action each event fetches -/

theorem fetch_reset {s : State} {rest : List Event} (h : s.input = .reset :: rest) :
    fetch s = (.powerOn, { s with input := rest }) := by simp only [fetch, h]

theorem fetch_rxByte {s : State} {rest : List Event} {b : Byte} (h : s.input = .rxByte b :: rest) :
    fetch s = (if b = 0x2f then .run .abort else .parse b, { s with input := rest }) := by
  simp only [fetch, h]

/-- The input the main loop leaves: a `Tick` in front is used up, an empty input stays empty. -/
def mainInput (s : State) : List Event := s.input.tail

/-- Nothing stands between the main loop and its next action: no byte and no reset comes first. -/
def MainTurn (s : State) : Prop := s.input = [] ∨ ∃ rest, s.input = .tick :: rest

theorem fetch_main {s : State} (h : MainTurn s) : fetch s = mainLoop s (mainInput s) := by
  rcases h with h | ⟨rest, h⟩ <;> simp only [fetch, mainInput, h, List.tail]

theorem mainLoop_call {s : State} {c : Call} {cs : List Call} (h : pendingCalls s = c :: cs)
    (rest : List Event) :
    mainLoop s rest = (callAction c, { s with bootDue := false, calls := cs }) := by
  simp only [mainLoop, h]

theorem mainLoop_poll {s : State} (h : pendingCalls s = []) (rest : List Event) :
    mainLoop s rest = (pollAction s, { s with input := rest }) := by
  simp only [mainLoop, h]

theorem pollAction_idle {s : State} (h : s.op = .idle) : pollAction s = .idlePoll := by
  simp [pollAction, h]

theorem pollAction_run {s : State} {i : Instr} (h : mailboxInstr s = some i) :
    pollAction s = .run i := by
  have ho : s.op ≠ .idle := by
    intro h0
    simp [mailboxInstr, h0] at h
  simp [pollAction, ho, h]

/-! ## The step -/

theorem step_eq {s t : State} {a : Action} (h : fetch s = (a, t)) : step s = act a t := by
  simp only [step, h]

theorem step_poll {s : State} (hm : MainTurn s) (hc : pendingCalls s = []) :
    step s = act (pollAction s) { s with input := mainInput s } :=
  step_eq ((fetch_main hm).trans (mainLoop_poll hc _))

theorem step_call {s : State} {c : Call} {cs : List Call} (hm : MainTurn s)
    (h : pendingCalls s = c :: cs) :
    step s = act (callAction c) { s with bootDue := false, calls := cs } :=
  step_eq ((fetch_main hm).trans (mainLoop_call h _))

/-- Everything a step can be: the reset, a byte for the parser, the escape byte, an awaiting call, or
a poll. -/
theorem step_cases (s : State) :
    (∃ rest, s.input = .reset :: rest ∧ step s = .next (resetStep { s with input := rest })) ∨
    (∃ b rest, s.input = .rxByte b :: rest ∧ b ≠ 0x2f ∧
      step s = .next (parserStep b { s with input := rest })) ∨
    (∃ rest, s.input = .rxByte 0x2f :: rest ∧ step s = execAbort { s with input := rest }) ∨
    (MainTurn s ∧ ∃ c cs, pendingCalls s = c :: cs ∧
      step s = act (callAction c) { s with bootDue := false, calls := cs }) ∨
    (MainTurn s ∧ pendingCalls s = [] ∧
      step s = act (pollAction s) { s with input := mainInput s }) := by
  have main : MainTurn s →
      (∃ c cs, pendingCalls s = c :: cs ∧
        step s = act (callAction c) { s with bootDue := false, calls := cs }) ∨
      (pendingCalls s = [] ∧ step s = act (pollAction s) { s with input := mainInput s }) := by
    intro hm
    cases hc : pendingCalls s with
    | nil => exact .inr ⟨rfl, step_poll hm hc⟩
    | cons c cs => exact .inl ⟨c, cs, rfl, step_call hm hc⟩
  obtain ⟨events, h⟩ : ∃ events, s.input = events := ⟨_, rfl⟩
  cases events with
  | nil =>
    have hm : MainTurn s := .inl h
    rcases main hm with h1 | h1
    · exact .inr (.inr (.inr (.inl ⟨hm, h1⟩)))
    · exact .inr (.inr (.inr (.inr ⟨hm, h1⟩)))
  | cons e rest =>
    cases e with
    | reset => exact .inl ⟨rest, h, step_eq (fetch_reset h)⟩
    | rxByte b =>
      have hs := step_eq (fetch_rxByte h)
      by_cases hb : b = 0x2f
      · subst hb
        rw [if_pos rfl] at hs
        exact .inr (.inr (.inl ⟨rest, h, hs⟩))
      · rw [if_neg hb] at hs
        exact .inr (.inl ⟨b, rest, h, hb, hs⟩)
    | tick =>
      have hm : MainTurn s := .inr ⟨rest, h⟩
      rcases main hm with h1 | h1
      · exact .inr (.inr (.inr (.inl ⟨hm, h1⟩)))
      · exact .inr (.inr (.inr (.inr ⟨hm, h1⟩)))

end Sys2Proof.Machine
end

