-- ==== Sys2Proof/Laws/Exec.lean ====
section
/-! SUPPORT. What an instruction can do, said once: a next state is reached by transfers, strobes,
printed lines and writes of `BUF`, `TEST_BIT` and `OP`, in some order. A relation that each of these
respects, and that composes, holds between the states before and after any instruction. -/
namespace Sys2Proof.Machine

/-- The relation holds between a state and each state one of the machine's operations makes of it. -/
structure Respected (P : State → State → Prop) : Prop where
  refl : ∀ s, P s s
  trans : ∀ {s t u}, P s t → P t u → P s u
  strobe : ∀ s, P s (strobe s)
  write : ∀ k a data s, 0 < data.length → P s (writeTransfer k a data s)
  read : ∀ k a n s, 0 < n → P s (readTransfer k a n s)
  text : ∀ cs s, P s (printLine cs s)
  buf : ∀ b (s : State), P s { s with buf := b }
  toggle : ∀ s, P s (toggleTestBit s)
  clear : ∀ s, P s (clearReady s)
  abort : ∀ s, P s (abortPartial s)

variable {P : State → State → Prop}

theorem Respected.devWrite (h : Respected P) {slot : Fin 8} {a : Byte} {data : List Byte}
    {s t : State} (hn : devWrite slot a data s = .next t) : P s t := by
  obtain ⟨hk, hl, hd, rfl⟩ := devWrite_next hn
  refine h.write _ _ _ _ ?_
  simp only [List.length_take]
  omega

theorem Respected.devRead (h : Respected P) {slot : Fin 8} {a : Byte} {announce : Bool}
    {s t : State} (hn : devRead slot a announce s = .next t) : P s t := by
  obtain ⟨hk, hl, rfl⟩ := devRead_next hn
  have hr := h.read ⟨slot.val, hk⟩ a _ s hl
  split
  · exact h.trans hr (h.text _ _)
  · exact hr

theorem Respected.raise (h : Respected P) {e : ErrCause} {s t : State}
    (hn : raise e s = .next t) : P s t := by
  unfold Machine.raise at hn
  split at hn <;> cases hn
  · exact h.refl _
  · exact h.text _ _

theorem Respected.complete (h : Respected P) {o : Host.Outcome State Fault Refusal} {s t : State}
    (ho : ∀ u, o = .next u → P s u) (hn : complete o = .next t) : P s t := by
  obtain ⟨u, hu, rfl⟩ := complete_eq_next.mp hn
  exact h.trans (ho u hu) (h.trans (h.text _ _) (h.clear _))

theorem Respected.checkSlot (h : Respected P) {slot : Fin 8} {s t : State}
    {body : State → Host.Outcome State Fault Refusal} (hb : ∀ u, body s = .next u → P s u)
    (hn : checkSlot slot s body = .next t) : P s t := by
  unfold Machine.checkSlot at hn
  split at hn
  · exact hb t hn
  · exact h.raise hn

theorem Respected.initDevice (h : Respected P) {slot : Fin 8} {s t : State}
    (hn : initDevice slot s = .next t) : P s t := by
  obtain ⟨u, hu, hn⟩ := andThen_eq_next.mp hn
  have h1 := h.trans (h.strobe s) (h.devWrite hu)
  split at hn
  · obtain ⟨v, hv, hn⟩ := andThen_eq_next.mp hn
    exact h.trans h1 (h.trans (h.devWrite hv) (h.devWrite hn))
  · cases hn
    exact h1

theorem Respected.initDevices (h : Respected P) {slots : List (Fin 8)} {s t : State}
    (hn : initDevices slots s = .next t) : P s t := by
  induction slots generalizing s with
  | nil =>
    cases hn
    exact h.refl _
  | cons k ks ih =>
    obtain ⟨u, hu, hn⟩ := andThen_eq_next.mp hn
    exact h.trans (h.initDevice hu) (ih hn)

theorem Respected.probeSlots (h : Respected P) {slots : List (Fin 8)} {found : List Byte}
    {s t : State} (hn : probeSlots slots found s = .next t) : P s t := by
  induction slots generalizing s found with
  | nil =>
    cases hn
    exact h.text _ _
  | cons k ks ih =>
    obtain ⟨u, hu, hn⟩ := andThen_eq_next.mp hn
    exact h.trans (h.devRead hu) (ih hn)

theorem Respected.loadProfile (h : Respected P) {slot : Fin 8} {s t : State}
    (hn : loadProfile slot s = .next t) : P s t := by
  unfold Machine.loadProfile at hn
  split at hn
  · obtain ⟨u, hu, hn⟩ := andThen_eq_next.mp hn
    cases hn
    exact h.trans (h.devRead hu) (h.buf _ _)
  · cases hn
    exact h.buf _ _

theorem Respected.storeProfile (h : Respected P) {slot : Fin 8} {i : Nat} {bytes : List Byte}
    {s t : State} (hn : storeProfile slot i bytes s = .next t) : P s t :=
  h.trans (h.buf _ _) (h.devWrite hn)

/-- What every operation respects, every instruction respects. -/
theorem Respected.exec (h : Respected P) {i : Instr} {s t : State}
    (hn : exec i s = .next t) : P s t := by
  cases i with
  | resetAll => exact h.complete (fun _ hu => h.initDevices hu) hn
  | presence =>
    refine h.complete (o := if s.cfg.readCapable then _ else _) (fun u hu => ?_) hn
    split at hu
    · exact h.probeSlots hu
    · exact h.raise hu
  | abort =>
    have ha : t = if s.op ≠ .idle then s else abortPartial s := by
      cases hn
      rfl
    rw [ha]
    split
    · exact h.refl _
    · exact h.abort _
  | idn =>
    refine h.complete (o := .next (printLine s.cfg.idnString s)) (fun u hu => ?_) hn
    cases hu
    exact h.text _ _
  | test slot =>
    refine h.complete (o := Machine.checkSlot slot s _) (fun u hu => ?_) hn
    exact h.checkSlot (fun _ hb => h.trans (h.toggle _) (h.devWrite hb)) hu
  | rdreg slot addr =>
    refine h.complete (o := Machine.checkSlot slot s _) (fun u hu => ?_) hn
    refine h.checkSlot (fun u hb => ?_) hu
    split at hb
    · exact h.raise hb
    split at hb
    · exact h.devRead hb
    · exact h.raise hb
  | wrreg slot addr data =>
    refine h.complete (o := Machine.checkSlot slot s _) (fun u hu => ?_) hn
    refine h.checkSlot (fun u hb => ?_) hu
    split at hb
    · exact h.raise hb
    split at hb
    · exact h.raise hb
    · exact h.trans (h.buf _ _) (h.devWrite hb)
  | setf slot f0 f1 f2 f3 =>
    refine h.complete (o := Machine.checkSlot slot s _) (fun u hu => ?_) hn
    refine h.checkSlot (fun u hb => ?_) hu
    obtain ⟨v, hv, hb⟩ := andThen_eq_next.mp hb
    exact h.trans (h.loadProfile hv) (h.storeProfile hb)
  | seta slot w0 w1 =>
    refine h.complete (o := Machine.checkSlot slot s _) (fun u hu => ?_) hn
    refine h.checkSlot (fun u hb => ?_) hu
    obtain ⟨v, hv, hb⟩ := andThen_eq_next.mp hb
    exact h.trans (h.loadProfile hv) (h.storeProfile hb)
  | setp slot w0 w1 =>
    exact h.complete (o := Machine.raise .unimplemented s) (fun _ hu => h.raise hu) hn
  | spiWr slot a data => exact h.devWrite hn
  | spiRd slot a announce => exact h.devRead hn

end Sys2Proof.Machine
end

