-- ==== Sys2Proof/Laws/PerInstr.lean ====
section
/-! SUPPORT. The families of LAWS.json: a statement about each instruction as syntax, one lemma per
constructor. `EncodeLength`: how many bytes an instruction's encoding has (30_encoding.md R90, R91). -/
namespace Sys2Proof.Laws

@[simp] theorem hex2_length (v : Byte) : (hex2 v).length = 2 := rfl

@[simp] theorem hexDigits_length (data : List Byte) : (hexDigits data).length = 2 * data.length := by
  induction data with
  | nil => rfl
  | cons v vs ih =>
    have h : hexDigits (v :: vs) = hex2 v ++ hexDigits vs := rfl
    rw [h, List.length_append, ih, hex2_length, List.length_cons]
    omega

/-- The length R90 gives each command, and R91 each frame: of a read frame the encoder writes the
address byte alone. -/
def encodedLength : Instr → Nat
  | .resetAll => 1
  | .presence => 1
  | .abort => 1
  | .idn => 5
  | .test _ => 3
  | .rdreg _ _ => 6
  | .wrreg _ _ data => 8 + 2 * data.length
  | .setf _ _ _ _ _ => 11
  | .seta _ _ _ => 7
  | .setp _ _ _ => 7
  | .spiWr _ _ data => 1 + data.length
  | .spiRd _ _ _ => 1

/-- A well-formed instruction is encoded in the number of bytes its row gives, and no encoding is
longer than the longest command. -/
def EncodeLength.Statement (i : Instr) : Prop :=
  i.wellFormed = true → (encode i).length = encodedLength i ∧ encodedLength i ≤ longestCommand

theorem EncodeLength.resetAll : EncodeLength.Statement .resetAll := fun _ => by decide

theorem EncodeLength.presence : EncodeLength.Statement .presence := fun _ => by decide

theorem EncodeLength.abort : EncodeLength.Statement .abort := fun _ => by decide

theorem EncodeLength.idn : EncodeLength.Statement .idn := fun _ => by decide

theorem EncodeLength.test (slot : Fin 8) : EncodeLength.Statement (.test slot) :=
  fun _ => ⟨rfl, by simp [encodedLength, longestCommand]⟩

theorem EncodeLength.rdreg (slot : Fin 8) (addr : Byte) :
    EncodeLength.Statement (.rdreg slot addr) := fun _ => ⟨rfl, by simp [encodedLength, longestCommand]⟩

theorem EncodeLength.wrreg (slot : Fin 8) (addr : Byte) (data : List Byte) :
    EncodeLength.Statement (.wrreg slot addr data) := by
  intro h
  have hd : 1 ≤ data.length ∧ data.length ≤ 9 := by simpa [Instr.wellFormed, countOk] using h
  constructor
  · simp [encode, encodedLength]
    omega
  · simp only [encodedLength, longestCommand]
    omega

theorem EncodeLength.setf (slot : Fin 8) (f0 f1 f2 f3 : Byte) :
    EncodeLength.Statement (.setf slot f0 f1 f2 f3) := fun _ => ⟨rfl, by simp [encodedLength, longestCommand]⟩

theorem EncodeLength.seta (slot : Fin 8) (w0 w1 : Byte) :
    EncodeLength.Statement (.seta slot w0 w1) := fun _ => ⟨rfl, by simp [encodedLength, longestCommand]⟩

theorem EncodeLength.setp (slot : Fin 8) (w0 w1 : Byte) :
    EncodeLength.Statement (.setp slot w0 w1) := fun _ => ⟨rfl, by simp [encodedLength, longestCommand]⟩

theorem EncodeLength.spiWr (slot : Fin 8) (a : RegAddr) (data : List Byte) :
    EncodeLength.Statement (.spiWr slot a data) := by
  intro h
  have hd : 1 ≤ data.length ∧ data.length ≤ 8 := by
    simp only [Instr.wellFormed, payloadOk, Bool.and_eq_true, decide_eq_true_eq] at h
    exact h.2
  constructor
  · simp only [encode, encodedLength, List.length_cons]
    omega
  · simp only [encodedLength, longestCommand]
    omega

theorem EncodeLength.spiRd (slot : Fin 8) (a : RegAddr) (announce : Bool) :
    EncodeLength.Statement (.spiRd slot a announce) := fun _ => ⟨rfl, by simp [encodedLength, longestCommand]⟩

end Sys2Proof.Laws
end

