-- ==== Sys2Proof/Tests/Slice0.lean ====
section
/-! SUPPORT. The model's own tests. Expected results are those of spec/95_test_vectors.md (the vector
is named in each comment) or written out from the rule named; then a witness for the hypotheses of
each statement of Certificates/Slice0/Obligations.lean, at a boundary value for each clause. -/
namespace Sys2Proof.Tests

open Sys2Proof.Machine

/-! ## Helpers -/

/-- `S0` of section 0.3: reset, boot initialisation over, eight named bytes in `RRB`. -/
def s0 : State :=
  { State.reset with bootDue := false, rrb := #v[0xa0, 0xa1, 0xa2, 0xa3, 0xa4, 0xa5, 0xa6, 0xa7] }

/-- `S0` with a command of the kind pending and the devices' answers. -/
def busy (k : Kind) (answers : List Byte) : State := { s0 with op := k, answers := answers }

/-- The configuration without read capability. -/
def blind : Config := { Config.fixture with readCapable := false }

/-- A field of the next state. -/
def next? {α : Type} (o : Host.Outcome State Fault Refusal) (f : State → α) : Option α :=
  match o with
  | .next s => some (f s)
  | .fault _ => none
  | .refused _ => none

def fault? (o : Host.Outcome State Fault Refusal) : Option Fault :=
  match o with
  | .next _ => none
  | .fault r => some r
  | .refused _ => none

def refused? (o : Host.Outcome State Fault Refusal) : Option Refusal :=
  match o with
  | .next _ => none
  | .fault _ => none
  | .refused r => some r

/-- The device trace with `Settle` and the discarded bytes erased (section 0.1). -/
def plain (s : State) : List DevEvent :=
  (s.dev.filter (fun e => decide (e ≠ .settle))).map DevEvent.sent

/-- `WR` of section 0.1. -/
def wr (k : Fin 4) (bytes : List Byte) : List DevEvent :=
  [.rstHigh, .rstLow, .csAssert k] ++ bytes.map (fun o => .shift o 0)
    ++ [.csDeassert k, .ioupHigh, .ioupLow]

/-- `RD` of section 0.1, the first byte with its read bit. -/
def rd (k : Fin 4) (first : Byte) (n : Nat) : List DevEvent :=
  [.csAssert k, .shift first 0] ++ List.replicate n (.shift 0 0) ++ [.csDeassert k]

/-! ## Well-formedness and the configuration -/

theorem test_wf_wrreg_empty : (Instr.wrreg 0 0x05 []).wellFormed = false := by decide
theorem test_wf_wrreg_ten : (Instr.wrreg 0 0x05 (List.replicate 10 0)).wellFormed = false := by
  decide
theorem test_wf_wrreg_nine : (Instr.wrreg 7 0x05 (List.replicate 9 0)).wellFormed = true := by decide
theorem test_wf_write_frame_slot : (Instr.spiWr 4 0x05 [1]).wellFormed = false := by decide
theorem test_wf_write_frame_empty : (Instr.spiWr 3 0x05 []).wellFormed = false := by decide
theorem test_wf_write_frame_nine : (Instr.spiWr 3 0x05 (List.replicate 9 0)).wellFormed = false := by
  decide
theorem test_wf_read_frame_slot : (Instr.spiRd 5 0x05 true).wellFormed = false := by decide

theorem regLen_eq_zero {c : Config} {a : Byte} (h : ∀ p ∈ c.table, p.1 ≠ a) : c.regLen a = 0 := by
  have hl : ∀ l : List (Byte × Fin 9), (∀ p ∈ l, p.1 ≠ a) → l.lookup a = none := by
    intro l
    induction l with
    | nil => intro _; rfl
    | cons p l ih =>
      intro hp
      have hk : (a == p.1) = false := by simpa using (hp p (by simp)).symm
      simp only [List.lookup, hk]
      exact ih fun q hq => hp q (by simp [hq])
  simp [Config.regLen, hl _ h]

/-- `CFG_T` "satisfies R8 (a) to (f)" (section 0.2). -/
theorem test_fixture_valid : Config.fixture.Valid where
  entries := by decide
  readBit := by
    intro a ha
    refine regLen_eq_zero ?_
    intro p hp he
    subst he
    have h : ∀ p ∈ Config.fixture.table, p.1.toNat < 0x80 := by simp [Config.fixture]
    have := h p hp
    omega
  profile0 := by decide
  probe := by decide
  test := by decide
  testLen := by decide
  refdiv := by decide
  refdivLen := by decide
  wire3 := by decide
  wire3Len := by decide
  ampctl := by decide
  ampctlLen := by decide
  alternates := by decide
  idn := by decide

theorem test_blind_valid : blind.Valid where
  entries := test_fixture_valid.entries
  readBit := test_fixture_valid.readBit
  profile0 := test_fixture_valid.profile0
  probe := test_fixture_valid.probe
  test := test_fixture_valid.test
  testLen := test_fixture_valid.testLen
  refdiv := test_fixture_valid.refdiv
  refdivLen := test_fixture_valid.refdivLen
  wire3 := test_fixture_valid.wire3
  wire3Len := test_fixture_valid.wire3Len
  ampctl := test_fixture_valid.ampctl
  ampctlLen := test_fixture_valid.ampctlLen
  alternates := test_fixture_valid.alternates
  idn := test_fixture_valid.idn

/-- R8 (f) refuses a test bit that changes nothing. -/
theorem test_valid_refuses : ¬ ({ Config.fixture with testData1 := [0x00, 0x00] } : Config).Valid :=
  fun h => h.alternates (by decide)

/-! ## Decoding: words written out from R82 to R87, R92, R93 -/

theorem test_decode_x : decodeTableWord 8 0x58 = some .resetAll := by decide
theorem test_decode_presence : decodeTableWord 8 0x3f = some .presence := by decide
theorem test_decode_abort : decodeTableWord 8 0x2f = some .abort := by decide
/-- `2a 49 44 4e 3f`, byte 0 lowest. -/
theorem test_decode_idn : decodeTableWord 40 0x3f4e44492a = some .idn := by decide
/-- V-P7: `49 32 54`. -/
theorem test_decode_test : decodeTableWord 24 0x543249 = some (.test 1) := by decide
/-- V-P12: `49 31 52 30 35 0a`. -/
theorem test_decode_rdreg : decodeTableWord 48 0x0a3530523149 = some (.rdreg 0 0x05) := by decide
/-- V-P13: a hex digit is a terminator too. -/
theorem test_decode_rdreg_hex : decodeTableWord 48 0x613530523149 = some (.rdreg 0 0x05) := by decide
/-- V-P19: `49 33 52 30 65 4c 32 44 31 61 32 62`. -/
theorem test_decode_wrreg :
    decodeTableWord 96 0x62326131_44324c65_30523349 = some (.wrreg 2 0x0e [0x1a, 0x2b]) := by decide
/-- V-P27: `49 31 46 30 61 30 62 30 63 30 64`. -/
theorem test_decode_setf :
    decodeTableWord 88 0x6430633062306130463149 = some (.setf 0 0x0a 0x0b 0x0c 0x0d) := by decide
/-- V-P30: `49 34 41 33 66 66 66`. -/
theorem test_decode_seta : decodeTableWord 56 0x66666633413449 = some (.seta 3 0x3f 0xff) := by
  decide
/-- V-P32, slot digit 8: `49 38 50 30 30 30 30`. -/
theorem test_decode_setp : decodeTableWord 56 0x30303030503849 = some (.setp 7 0x00 0x00) := by
  decide
/-- The frame of V-T1: `0e 1a 2b` on slot 2. -/
theorem test_decode_write_frame :
    decodeFrame 2 false [0x0e, 0x1a, 0x2b] = .ok (.spiWr 2 0x0e [0x1a, 0x2b]) := by decide
/-- The frame of V-T2: `85 00 00` on slot 0. -/
theorem test_decode_read_frame :
    decodeFrame 0 true [0x85, 0x00, 0x00] = .ok (.spiRd 0 0x05 true) := by decide
theorem test_decode_table_write : decodeTableWord 8 0x00 =
    some (.spiWr 0 0x00 (List.replicate 8 0)) := by decide
theorem test_decode_table_read : decodeTableWord 8 0x80 = some (.spiRd 0 0x00 false) := by decide

/-- V-P21: the source's uppercase `E` is malformed. -/
theorem test_reject_uppercase : decodeCommand (text ['I', '3', 'R', '0', 'E', 'L', '2', 'D']) =
    .error .hexDigit := by decide
/-- V-P9 and V-P10. -/
theorem test_reject_slot : decodeCommand (text ['I', '9', 'T']) = .error .slotDigit := by decide
theorem test_reject_selector : decodeCommand (text ['I', '1', 'X']) = .error .selector := by decide
/-- V-P22. -/
theorem test_reject_count : decodeCommand (text ['I', '1', 'R', '0', 'e', 'L', '0']) =
    .error .countDigit := by decide
/-- V-P14: `/` aborts. -/
theorem test_reject_aborted : decodeCommand (text ['I', '1', 'R', '0', '5', '/']) =
    .error .aborted := by decide
/-- V-P15: a read of five bytes waits. -/
theorem test_reject_truncated : decodeCommand (text ['I', '1', 'R', '0', '5']) =
    .error .truncated := by decide
/-- R93: a read frame sends zeros. -/
theorem test_reject_frame : decodeFrame 0 true [0x85, 0x00, 0x01] = .error .frameNotZero := by decide

/-- V-H. -/
theorem test_hexByte : hexByte 0x31 0x61 = some 0x1a ∧ hexByte 0x61 0x35 = some 0xa5 := by decide
theorem test_hex_class : [0x2f, 0x3a, 0x41, 0x46, 0x60, 0x67].all (fun c => !isHex c) = true := by
  decide
theorem test_hex2 : [0x00, 0x0a, 0x1a, 0xff].map hex2 =
    [[0x30, 0x30], [0x30, 0x61], [0x31, 0x61], [0x66, 0x66]] := by decide

/-! ## The parser -/

/-- V-P5: `**IDN?` ends as a presence check. -/
theorem test_parse_star_star : (parseBytes (text ['*', '*', 'I', 'D', 'N', '?']) s0).op =
    .checkPresence := by decide
/-- V-P3: `*IDN?` leaves (Idle, 4). -/
theorem test_parse_idn : let t := parseBytes (text ['*', 'I', 'D', 'N', '?']) s0
    (t.op, t.pstate, t.pos) = (.identify, .idle, 4) := by decide
/-- V-P40: the first byte of the next command ends the read and is eaten. -/
theorem test_parse_terminator : let t := parseBytes (text ['I', '1', 'R', '0', '5', 'I', '2', 'T']) s0
    (t.op, t.slot, t.addrc.toList) = (.readRegister, 0, [0x30, 0x35]) := by decide
/-- V-P41: a line feed after `I` breaks the command. -/
theorem test_parse_line_feed : let t := parseBytes [0x49, 0x0a, 0x31, 0x54] s0
    (t.op, t.pstate, t.pos) = (.idle, .idle, 0) := by decide

/-! ## The instructions, one step each -/

/-- V-P14: `/` in place of the terminator. -/
theorem test_abort : next? (exec .abort { s0 with pstate := .readingRegisterAddress, pos := 2 })
    (fun t => (t.pstate, t.pos, t.op)) = some (.idle, 0, .idle) := by decide
/-- V-P36: nothing changes while a command is pending. -/
theorem test_abort_gated : next? (exec .abort { busy .writeRegister [] with pos := 4 })
    (fun t => (t.pos, t.op)) = some (4, .writeRegister) := by decide

/-- V-D1. -/
theorem test_test : next? (exec (.test 1) (busy .test [])) (fun t => (plain t, t.testBit, t.op)) =
    some (wr 1 [0x08, 0x00, 0x01], true, .idle) := by decide
/-- V-D3: slot digit 5. -/
theorem test_test_unwired : next? (exec (.test 4) (busy .test []))
    (fun t => (t.dev, t.testBit, t.out)) =
    some ([], false, text "ERR slot\nDone\n".toList) := by decide

/-- V-D4. -/
theorem test_idn : next? (exec .idn (busy .identify [])) (fun t => (t.dev, t.out)) =
    some ([], text "CG-DDS-BRIDGE\nDone\n".toList) := by decide

set_option maxRecDepth 4000 in
/-- V-D6: 52 line and bus events without read capability. -/
theorem test_resetAll : next? (exec .resetAll { busy .reset [] with cfg := blind }) plain =
    some ([0, 1, 2, 3].flatMap fun k : Fin 4 =>
      [.rstHigh, .rstLow] ++ wr k [0x02, 0x1f, 0x3f, 0xc0, 0x00]) := by decide

/-- V-D7. -/
theorem test_presence : next? (exec .presence (busy .checkPresence
      [9, 0, 0, 0x80, 2, 9, 0, 0, 0, 0, 9, 0xff, 0xff, 0xff, 0xff, 9, 0x12, 0x34, 0x00, 0x56]))
    (fun t => (t.out, t.rrb.toList)) =
    some (text "I1 I3 \nDone\n".toList, [0x12, 0x34, 0x00, 0x56, 0xa4, 0xa5, 0xa6, 0xa7]) := by decide
/-- V-D10. -/
theorem test_presence_blind : next? (exec .presence { busy .checkPresence [] with cfg := blind })
    (fun t => (t.dev, t.out)) = some ([], text "ERR noread\nDone\n".toList) := by decide

/-- V-D12: three bytes typed, two sent. -/
theorem test_wrreg_long : next? (exec (.wrreg 0 0x05 [0x11, 0x22, 0x33]) (busy .writeRegister []))
    (fun t => (plain t, t.buf.toList.take 3)) =
    some (wr 0 [0x05, 0x11, 0x22], [0x11, 0x22, 0x33]) := by decide
/-- V-D14: the ninth byte never reaches `BUF`. -/
theorem test_wrreg_nine : next? (exec (.wrreg 0 0x0b [0, 1, 2, 3, 4, 5, 6, 7, 8])
      (busy .writeRegister [])) (fun t => (plain t, t.buf.toList)) =
    some (wr 0 [0x0b, 0, 1, 2, 3, 4, 5, 6, 7], [0, 1, 2, 3, 4, 5, 6, 7]) := by decide

/-- V-D19. -/
theorem test_rdreg : next? (exec (.rdreg 0 0x05) (busy .readRegister [9, 0x12, 0x34]))
    (fun t => (plain t, t.out, t.rrb.toList.take 3)) =
    some (rd 0 0x85 2, text "12 34\nDone\n".toList, [0x12, 0x34, 0xa2]) := by decide
/-- V-D23: the register check comes before the capability check. -/
theorem test_rdreg_blind : next? (exec (.rdreg 0 0x06) { busy .readRegister [] with cfg := blind })
    State.out = some (text "ERR register\nDone\n".toList) := by decide

/-- V-D24. -/
theorem test_setf : next? (exec (.setf 0 0x0a 0x0b 0x0c 0x0d)
      (busy .setFrequency [9, 0x08, 0xb5, 0, 0, 0x11, 0x22, 0x33, 0x44])) plain =
    some (rd 0 0x8f 8 ++ wr 0 [0x0f, 0x08, 0xb5, 0, 0, 0x0a, 0x0b, 0x0c, 0x0d]) := by decide
/-- V-D25: `RRB` is untouched. -/
theorem test_setf_blind : next? (exec (.setf 0 0x0a 0x0b 0x0c 0x0d)
      { busy .setFrequency [] with cfg := blind }) (fun t => (plain t, decide (t.rrb = s0.rrb))) =
    some (wr 0 [0x0f, 0x08, 0xb5, 0, 0, 0x0a, 0x0b, 0x0c, 0x0d], true) := by decide

/-- V-D28. -/
theorem test_seta : next? (exec (.seta 0 0x3f 0xff)
      (busy .setAmplitude [9, 0x08, 0xb5, 0, 0, 0x11, 0x22, 0x33, 0x44]))
    (fun t => (plain t, t.buf.toList)) =
    some (rd 0 0x8f 8 ++ wr 0 [0x0f, 0x3f, 0xff, 0, 0, 0x11, 0x22, 0x33, 0x44],
      [0x3f, 0xff, 0, 0, 0x11, 0x22, 0x33, 0x44]) := by decide
/-- V-D29. -/
theorem test_seta_blind : next? (exec (.seta 0 0x3f 0xff)
      { busy .setAmplitude [] with cfg := blind }) plain =
    some (wr 0 [0x0f, 0x3f, 0xff, 0, 0, 0, 0, 0, 0]) := by decide

/-- V-D30, slot digit 8. -/
theorem test_setp : next? (exec (.setp 7 0x00 0x00) (busy .setPhase []))
    (fun t => (t.dev, t.out)) = some ([], text "Unimplemented\nDone\n".toList) := by decide

/-- V-T1, `Settle` included, the captured bytes erased. -/
theorem test_write_frame : next? (exec (.spiWr 2 0x0e [0x1a, 0x2b]) s0)
    (fun t => (t.dev.map DevEvent.sent, t.out)) =
    some (spaced (wr 2 [0x0e, 0x1a, 0x2b]), []) := by decide
/-- V-T6. -/
theorem test_write_frame_refused :
    [refused? (exec (.spiWr 4 0x0e [0x1a, 0x2b]) s0), refused? (exec (.spiWr 0 0x0f [1, 2, 3]) s0)] =
    [some .transferSlot, some .transferData] := by decide
/-- V-T2, V-T3. -/
theorem test_read_frame : next? (exec (.spiRd 0 0x05 true) { s0 with answers := [9, 0x12, 0x34] })
    (fun t => (t.dev.length, t.out)) = some (10, text "12 34\n".toList) := by decide
/-- V-T6. -/
theorem test_read_frame_refused : refused? (exec (.spiRd 0 0x06 true) s0) = some .transferLength := by
  decide

/-! ## Steps -/

/-- V-E2: `?` injected inside the write of V-D11 is dropped. -/
theorem test_step_injected : next? (step { s0 with
      op := .writeRegister, slot := 2, addrc := #v[0x30, 0x65], nlen := 2,
      pay := #v[0x31, 0x61, 0x32, 0x62, 0, 0, 0, 0, 0, 0, 0, 0, 0, 0, 0, 0, 0, 0],
      gaps := List.replicate 8 [] ++ [[0x3f]] })
    (fun t => (plain t, t.out, t.op)) =
    some (wr 2 [0x0e, 0x1a, 0x2b], text "Done\n".toList, .idle) := by decide
/-- V-D31. -/
theorem test_step_idle : next? (step s0) (fun t => (t.dev, t.out)) = some ([], []) := by decide
/-- V-X2: the boot sequence begins with the strobe. -/
theorem test_step_boot : next? (step State.reset) (fun t => (plain t, t.calls.length)) =
    some ([.rstHigh, .rstLow], 15) := by decide
/-- V-X3: a byte that arrives in the boot sequence is parsed. -/
theorem test_step_boot_byte : next? (step { State.reset with gaps := [[], [0x49, 0x31, 0x54]] })
    (fun t => (t.op, t.out)) = some (.test, []) := by decide
/-- A digit that is no hex digit in a pending command (R88). -/
theorem test_step_bad_mailbox :
    fault? (step { s0 with op := .readRegister, addrc := #v[0x30, 0x47] }) =
      some .undecodableMailbox := by decide

set_option maxRecDepth 4000 in
/-- The word of V-P7 placed after reset runs as V-D1. -/
theorem test_fetch_test : next? (step (State.reset.withFetchWord 24 0x543249)) plain =
    some (wr 1 [0x08, 0x00, 0x01]) := by decide
theorem test_fetch_abort : next? (step (State.reset.withFetchWord 8 0x2f)) State.input = some [] := by
  decide
theorem test_fetch_write_frame : next? (step (State.reset.withFetchWord 8 0x02)) plain =
    some (wr 0 [0x02, 0, 0, 0, 0]) := by decide
theorem test_fetch_read_frame : next? (step (State.reset.withFetchWord 8 0x82)) plain =
    some (rd 0 0x82 4) := by decide

/-! ## Witnesses: the hypotheses of the statements can be met, at the boundary of each clause -/

/-- `S0` with the parser in a state. -/
def reading (p : PState) (n : Nat) : State := { s0 with pstate := p, pos := n }

/-- `S0` with a `Tick` next. -/
def ticked (s : State) : State := { s with input := [.tick] }

theorem witness_ResetGivesTheTableOfResetValues :
    ({ busy .test [] with input := [.reset] } : State).input = .reset :: [] := by decide

theorem witness_InvHoldsAfterPowerOn : Config.fixture.Valid ∧ blind.Valid :=
  ⟨test_fixture_valid, test_blind_valid⟩

/-- A step that prints and is not the reset, and the reset. -/
theorem witness_OutAndDevStartEmptyAndOnlyGrow :
    ((next? (step (busy .identify [])) State.out).isSome = true ∧
      (busy .identify []).input.head? ≠ some .reset) ∧
    let s := { busy .test [] with input := [.reset] };
    (next? (step s) State.out).isSome = true ∧ s.input.head? = some .reset := by decide

/-- Both inputs of the statement: none left, and a `Tick` in front. -/
theorem witness_TickRunsThePendingCommand :
    pendingCalls (busy .test []) = [] ∧ mailboxInstr (busy .test []) = some (.test 0) ∧
      (busy .test []).input = [] ∧ pendingCalls (ticked (busy .test [])) = [] ∧
      mailboxInstr (ticked (busy .test [])) = some (.test 0) ∧
      (ticked (busy .test [])).input = .tick :: [] := by decide

/-- The four clauses: a byte, `/`, an awaiting frame and an awaiting strobe. -/
theorem witness_StepRunsBytesAndAwaitingFrames :
    (({ s0 with input := [.rxByte 0x49] } : State).input = .rxByte 0x49 :: [] ∧
      (0x49 : Byte) ≠ 0x2f) ∧
    ({ s0 with input := [.rxByte 0x2f] } : State).input = .rxByte 0x2f :: [] ∧
    (s0.input = [] ∧ (ticked s0).input = .tick :: [] ∧
      pendingCalls ({ s0 with calls := [.frame 3 [0x05, 1, 2] false] } : State) =
        .frame 3 [0x05, 1, 2] false :: [] ∧
      decodeFrame 3 false [0x05, 1, 2] = .ok (.spiWr 3 0x05 [1, 2])) ∧
    State.reset.input = [] ∧ (pendingCalls State.reset).head? = some .strobe := by decide

theorem witness_IdlePollChangesNothing :
    pendingCalls s0 = [] ∧ s0.op = .idle ∧ s0.input = [] ∧ pendingCalls (ticked s0) = [] ∧
      (ticked s0).op = .idle ∧ (ticked s0).input = .tick :: [] := by decide

/-- The shortest and the longest write, slot digits 1 and 8. -/
theorem witness_CommandsDecodeFromTheirEncoding :
    (Instr.wrreg 0 0x00 [0xff]).wellFormed = true ∧ (Instr.wrreg 0 0x00 [0xff]).isFrame = false ∧
      (Instr.wrreg 7 0xff (List.replicate 9 0)).wellFormed = true ∧
      (Instr.wrreg 7 0xff (List.replicate 9 0)).isFrame = false := by decide

theorem witness_FramesDecodeFromTheirEncoding :
    (Instr.spiWr 0 0x00 [0x01]).wellFormed = true ∧
      (Instr.spiWr 3 0x7f (List.replicate 8 0xff)).wellFormed = true ∧
      (Instr.spiRd 0 0x00 false).wellFormed = true ∧ (Instr.spiRd 3 0x7f true).wellFormed = true := by
  decide

/-- A read, whose terminator is free, and a command that is none. -/
theorem witness_DecodedBytesAreTheEncoding :
    decodeCommand (text ['I', '1', 'R', '0', '5', 'a', 'X']) = .ok (.rdreg 0 0x05, text ['X']) ∧
      decodeCommand (text ['I', '8', 'T']) = .ok (.test 7, []) ∧
      ∀ slot addr, Instr.test 7 ≠ .rdreg slot addr :=
  ⟨by decide, by decide, fun _ _ h => by cases h⟩

/-- The ends of the range of uppercase letters. -/
theorem witness_HexDigitsRoundTrip :
    0x41 ≤ (0x41 : Byte).toNat ∧ (0x41 : Byte).toNat ≤ 0x5a ∧
      0x41 ≤ (0x5a : Byte).toNat ∧ (0x5a : Byte).toNat ≤ 0x5a := by decide

theorem witness_ClosedGateDropsEveryByte :
    ({ busy .test [] with input := [.rxByte 0x2f] } : State).op ≠ .idle ∧
      ({ busy .test [] with input := [.rxByte 0x2f] } : State).input = .rxByte 0x2f :: [] := by decide

theorem witness_ParserWritesOnlyItsOwnFields :
    ({ s0 with input := [.rxByte 0x58, .tick] } : State).input = .rxByte 0x58 :: [.tick] := by decide

/-- The gate open and closed. -/
theorem witness_AbortReturnsTheParserToIdle :
    (reading .readingData 17).op = .idle ∧ (busy .setPhase []).op ≠ .idle := by decide

theorem witness_IdleStartsIndexedAndResolvesSingleCharacters :
    s0.op = .idle ∧ s0.pstate = .idle := by decide

/-- `Idle` with a byte that starts nothing, and each position of the token with a wrong byte. -/
theorem witness_IdnTokenIsMatchedCharacterByCharacter :
    (s0.op = .idle ∧ s0.pstate = .idle ∧ (0x71 : Byte) ∉ [(0x49 : Byte), 0x58, 0x3f, 0x2a, 0x2f]) ∧
    ((reading .readingIdn 1).op = .idle ∧ (reading .readingIdn 1).pstate = .readingIdn ∧
      (reading .readingIdn 1).pos = 1 ∧ (reading .readingIdn 2).pos = 2 ∧
      (reading .readingIdn 3).pos = 3 ∧ (reading .readingIdn 4).pos = 4) ∧
    ((0x58 : Byte) ≠ 0x2f ∧ (0x58 : Byte) ≠ 0x3f ∧
      ((reading .readingIdn 4).pos, (0x3f : Byte)) ∈
        [(1, (0x49 : Byte)), (2, 0x44), (3, 0x4e), (4, 0x3f)]) := by decide

/-- Position 0 with the bytes just outside `'1'..'8'`, position 1 with a byte that selects nothing. -/
theorem witness_IndexStateFollowsItsRows :
    ((reading .readingIndex 0).op = .idle ∧ (reading .readingIndex 0).pstate = .readingIndex ∧
      (reading .readingIndex 0).pos = 0) ∧
    ((0x30 : Byte) ≠ 0x2f ∧ (0x30 : Byte).toNat < 0x31) ∧
    ((0x39 : Byte) ≠ 0x2f ∧ 0x38 < (0x39 : Byte).toNat) ∧
    ((reading .readingIndex 1).pstate = .readingIndex ∧ (reading .readingIndex 1).pos = 1 ∧
      (0x74 : Byte) ∉ [(0x2f : Byte), 0x54, 0x52, 0x46, 0x41, 0x50]) := by decide

/-- Both digit positions, and the position after them. -/
theorem witness_AddressDigitsAreStoredAndLContinues :
    (reading .readingRegisterAddress 0).op = .idle ∧
      (reading .readingRegisterAddress 0).pstate = .readingRegisterAddress ∧
      (reading .readingRegisterAddress 0).pos = 0 ∧ (reading .readingRegisterAddress 1).pos = 1 ∧
      isHex 0x66 = true ∧ (reading .readingRegisterAddress 2).pos = 2 := by decide

theorem witness_AnyTerminatorResolvesARead :
    (reading .readingRegisterAddress 2).op = .idle ∧
      (reading .readingRegisterAddress 2).pstate = .readingRegisterAddress ∧
      (0x61 : Byte) ≠ 0x2f ∧ (reading .readingRegisterAddress 2).pos = 2 ∧ (0x61 : Byte) ≠ 0x4c ∧
      (reading .readingRegisterAddress 1).pos < 2 ∧ isHex 0x45 = false ∧ (0x45 : Byte) ≠ 0x2f := by
  decide

/-- Counts 1 and 9, the bytes just outside them, and position 1. -/
theorem witness_LengthStateFollowsItsRows :
    ((reading .readingDataLength 0).op = .idle ∧
      (reading .readingDataLength 0).pstate = .readingDataLength ∧
      (reading .readingDataLength 0).pos = 0) ∧
    (1 ≤ (1 : Fin 16).val ∧ (9 : Fin 16).val ≤ 9) ∧
    ((0x30 : Byte) ≠ 0x2f ∧ (0x30 : Byte).toNat < 0x31 ∧ 0x39 < (0x3a : Byte).toNat) ∧
    ((reading .readingDataLength 1).pos = 1 ∧ (0x64 : Byte) ≠ 0x2f ∧ (0x64 : Byte) ≠ 0x44) := by decide

/-- The last of 18 data digits, a data digit that is not the last, a byte that is no digit, and the
last digit of each word. -/
theorem witness_PayloadDigitsAreStoredAndTheLastResolves :
    (let s := ({ reading .readingData 17 with nlen := 9 } : State);
      s.op = .idle ∧ s.pos = 17 ∧ 17 < 2 * s.nlen.val ∧ s.pstate = .readingData ∧
        isHex 0x66 = true ∧ 17 + 1 = 2 * s.nlen.val) ∧
    (let s := ({ reading .readingData 0 with nlen := 1 } : State);
      s.op = .idle ∧ s.pos = 0 ∧ s.pstate = .readingData ∧ isHex 0x30 = true ∧
        0 + 1 < 2 * s.nlen.val ∧ isHex 0x41 = false ∧ (0x41 : Byte) ≠ 0x2f) ∧
    ((reading .readingFrequency 7).pstate = .readingFrequency ∧
      (reading .readingFrequency 7).pos + 1 = 8) ∧
    ((reading .readingAmplitude 3).pstate = .readingAmplitude ∧
      (reading .readingAmplitude 3).pos + 1 = 4) ∧
    ((reading .readingPhase 3).pstate = .readingPhase ∧ (reading .readingPhase 3).pos + 1 = 4) := by
  decide

theorem witness_NonHexByteDropsAWordCommand :
    (reading .readingFrequency 0).op = .idle ∧
      (reading .readingFrequency 0).pstate = .readingFrequency ∧
      (reading .readingAmplitude 3).pstate = .readingAmplitude ∧
      (reading .readingPhase 2).pstate = .readingPhase ∧ isHex 0x3f = false ∧ (0x3f : Byte) ≠ 0x2f := by
  decide

/-- A command with bytes after it, and a beginning of one. -/
theorem witness_ParserAgreesWithTheDecoder :
    s0.op = .idle ∧ s0.pstate = .idle ∧
      decodeCommand (text ['I', '1', 'T', 'I', '2', 'T']) = .ok (.test 0, text ['I', '2', 'T']) ∧
      Instr.test 0 ≠ .abort ∧ decodeCommand (text ['I', '1', 'F', '0']) = .error .truncated := by decide

/-- The state of `S0` meets the parser's invariant; a test is pending in it. -/
theorem witness_PendingCommandIsComplete :
    ParserInv (busy .test []) ∧ (busy .test []).op ≠ .idle :=
  ⟨{ gate := fun _ => rfl, addrHex := by decide, count := by decide, posBound := by decide,
     pos := trivial, pending := trivial }, by decide⟩

theorem witness_DeliveredCommandIsExecuted :
    let s := { s0 with input := [.rxByte 0x49, .rxByte 0x38, .rxByte 0x54, .tick] };
    (Instr.test 7).wellFormed = true ∧ (Instr.test 7).isFrame = false ∧ Instr.test 7 ≠ .abort ∧
      s.op = .idle ∧ s.pstate = .idle ∧ pendingCalls s = [] ∧
      s.input = (encode (.test 7)).map Event.rxByte ++ .tick :: [] := by decide

/-- The last wired slot. -/
theorem witness_TestTogglesThenWritesTheTestRegister :
    (3 : Fin 8).val < 4 ∧ (busy .test []).cfg.Valid ∧ (busy .test []).op ≠ .idle :=
  ⟨by decide, test_fixture_valid, by decide⟩

theorem witness_IdnPrintsTheIdentification : (busy .identify []).op ≠ .idle := by decide

theorem witness_ResetAllInitialisesEverySlot :
    (busy .reset []).cfg.Valid ∧ (busy .reset []).op ≠ .idle :=
  ⟨test_fixture_valid, by decide⟩

theorem witness_PresenceListsTheSlotsThatAnswer :
    (busy .checkPresence []).cfg.Valid ∧ (busy .checkPresence []).op ≠ .idle ∧
      (busy .checkPresence []).cfg.readCapable = true :=
  ⟨test_fixture_valid, by decide, by decide⟩

/-- Exactly as many bytes as the register holds, and nine for a register of eight. -/
theorem witness_WrregWritesTheFirstBytesTyped :
    let s := busy .writeRegister [];
    (3 : Fin 8).val < 4 ∧ s.op ≠ .idle ∧ 0 < s.cfg.regLen 0x0e ∧
      s.cfg.regLen 0x0e ≤ [(1 : Byte), 2].length ∧ 0 < s.cfg.regLen 0x0b ∧
      s.cfg.regLen 0x0b ≤ (List.replicate 9 (0 : Byte)).length := by decide

theorem witness_RdregPrintsTheCapturedBytes :
    let s := busy .readRegister [];
    (3 : Fin 8).val < 4 ∧ s.op ≠ .idle ∧ 0 < s.cfg.regLen 0x05 ∧ s.cfg.readCapable = true := by decide

/-- With and without read capability. -/
theorem witness_SetfKeepsTheFirstFourBytes :
    (3 : Fin 8).val < 4 ∧ ((busy .setFrequency []).cfg.Valid ∧ (busy .setFrequency []).op ≠ .idle ∧
      (busy .setFrequency []).cfg.readCapable = true) ∧
    let s := { busy .setFrequency [] with cfg := blind }
    s.cfg.Valid ∧ s.op ≠ .idle ∧ s.cfg.readCapable = false :=
  ⟨by decide, ⟨test_fixture_valid, by decide, by decide⟩, test_blind_valid, by decide, by decide⟩

theorem witness_SetaKeepsTheLastSixBytes :
    (3 : Fin 8).val < 4 ∧ ((busy .setAmplitude []).cfg.Valid ∧ (busy .setAmplitude []).op ≠ .idle ∧
      (busy .setAmplitude []).cfg.readCapable = true) ∧
    let s := { busy .setAmplitude [] with cfg := blind }
    s.cfg.Valid ∧ s.op ≠ .idle ∧ s.cfg.readCapable = false :=
  ⟨by decide, ⟨test_fixture_valid, by decide, by decide⟩, test_blind_valid, by decide, by decide⟩

theorem witness_SetpReportsUnimplemented : (busy .setPhase []).op ≠ .idle := by decide

/-- The first and the last slot that is not wired. -/
theorem witness_UnwiredSlotIsReportedAndNotForwarded :
    (busy .test []).op ≠ .idle ∧ 4 ≤ (4 : Fin 8).val ∧ 4 ≤ (7 : Fin 8).val := by decide

/-- A table entry of length 0, an address without an entry, an address with bit 7 set. -/
theorem witness_UntransferableRegisterIsReported :
    let s := busy .readRegister []
    s.op ≠ .idle ∧ (3 : Fin 8).val < 4 ∧ s.cfg.regLen 0x06 = 0 ∧ s.cfg.regLen 0x10 = 0 ∧
      s.cfg.regLen 0x8e = 0 := by decide

/-- One byte too few. -/
theorem witness_ShortWriteIsReported :
    let s := busy .writeRegister []
    s.op ≠ .idle ∧ (3 : Fin 8).val < 4 ∧ 0 < s.cfg.regLen 0x0f ∧
      (List.replicate 7 (0 : Byte)).length < s.cfg.regLen 0x0f := by decide

theorem witness_ReadsWithoutCapabilityAreReported :
    let s := { busy .readRegister [] with cfg := blind }
    s.op ≠ .idle ∧ s.cfg.readCapable = false ∧ (3 : Fin 8).val < 4 ∧ 0 < s.cfg.regLen 0x05 := by decide

theorem witness_EveryCommandCompletesWithDone :
    s0.cfg.Valid ∧ (Instr.setp 7 0 0).isFrame = false ∧ Instr.setp 7 0 0 ≠ .abort :=
  ⟨test_fixture_valid, by decide, by decide⟩

/-- The gate closed, no byte arriving, and bytes arriving with the gate open; exactly the register's
length. -/
theorem witness_WriteFrameDrivesTheWriteTransfer :
    (3 : Fin 8).val < 4 ∧ 0 < s0.cfg.regLen (BitVec.setWidth 8 (0x0e : RegAddr)) ∧
      s0.cfg.regLen (BitVec.setWidth 8 (0x0e : RegAddr)) ≤ [(1 : Byte), 2].length ∧ s0.gaps = [] ∧
      (busy .test []).op ≠ .idle ∧ ({ s0 with gaps := [[0x49]] } : State).op = .idle := by decide

theorem witness_ReadFrameCapturesTheRegister :
    (3 : Fin 8).val < 4 ∧ 0 < s0.cfg.regLen (BitVec.setWidth 8 (0x05 : RegAddr)) ∧ s0.gaps = [] ∧
      (busy .test []).op ≠ .idle := by decide

/-- Elements 1 and 2 lie on the two sides of a register of length 2. -/
theorem witness_CapturedBytesOverwriteOnlyTheFirstElements :
    (3 : Fin 8).val < 4 ∧ s0.cfg.regLen (BitVec.setWidth 8 (0x05 : RegAddr)) = 2 := by decide

/-- The three clauses: slot 4; slot 3 and a register of length 0; slot 3 and one byte too few. -/
theorem witness_CallsOutsideThePreconditionsAreRefused :
    4 ≤ (4 : Fin 8).val ∧
      ((3 : Fin 8).val < 4 ∧ s0.cfg.regLen (BitVec.setWidth 8 (0x06 : RegAddr)) = 0) ∧
      [(1 : Byte)].length < s0.cfg.regLen (BitVec.setWidth 8 (0x05 : RegAddr)) := by decide

theorem witness_BytesDuringACommandChangeNothing :
    (busy .identify []).op ≠ .idle ∧
      (next? (exec .idn (busy .identify [])) State.op).isSome = true := by decide

set_option maxRecDepth 4000 in
/-- Two states with one configuration and different histories, in both of which the reset answers a
next state. -/
theorem witness_ResetAllIsIdempotentOnTheBus :
    let s := { busy .reset [] with cfg := blind }
    let s' := { busy .reset [1, 2, 3] with cfg := blind, testBit := true }
    s.cfg.Valid ∧ s'.cfg = s.cfg ∧ (next? (exec .resetAll s) State.op).isSome = true ∧
      (next? (exec .resetAll s') State.op).isSome = true :=
  ⟨test_blind_valid, rfl, by decide, by decide⟩

/-- With and without `BOOT_INIT`; V-X3: the bytes of `I1T`, arriving in the gaps, leave a command that
the first poll runs. -/
theorem witness_BootRunsTheInitialisationOnce :
    Config.fixture.Valid ∧ Config.fixture.bootInit = true ∧
      mailboxInstr (parseGaps 2 { State.powerOn Config.fixture with gaps := [[0x49, 0x31], [0x54]] }) =
        some (.test 0) ∧
      ({ Config.fixture with bootInit := false } : Config).bootInit = false :=
  ⟨test_fixture_valid, by decide, by decide, rfl⟩

/-- The first step after reset, with nothing in front and with a `Tick`. -/
theorem witness_StrobeCallPulsesTheResetLine :
    State.reset.input = [] ∧ (ticked State.reset).input = .tick :: [] ∧
      pendingCalls State.reset = .strobe :: (pendingCalls State.reset).tail ∧
      pendingCalls (ticked State.reset) = .strobe :: (pendingCalls (ticked State.reset)).tail := by
  decide

/-- The first slot right after reset, and the last slot's calls with none after them. -/
theorem witness_BootCallsInitialiseTheirSlot :
    ((0 : Fin 8).val < 4 ∧ State.reset.cfg.Valid ∧ State.reset.input = [] ∧
      pendingCalls State.reset =
        initCalls State.reset.cfg 0 ++ (pendingCalls State.reset).drop 4) ∧
    let s := { s0 with calls := initCalls s0.cfg 3 }
    (3 : Fin 8).val < 4 ∧ s.cfg.Valid ∧ s.input = [] ∧ pendingCalls s = initCalls s.cfg 3 ++ [] :=
  ⟨⟨by decide, test_fixture_valid, rfl, by decide⟩, by decide, test_fixture_valid, rfl, by decide⟩

/-- The write of V-D11, exactly the register's length (a third byte would be left out), and a later
state in which the device answers what was written. -/
theorem witness_EchoDeviceReturnsWhatWasWritten :
    let s := busy .writeRegister []
    let u := busy .readRegister [0, 0x1a, 0x2b];
    (2 : Fin 8).val < 4 ∧ s.cfg.Valid ∧ s.op ≠ .idle ∧ 0 < s.cfg.regLen 0x0e ∧
      s.cfg.regLen 0x0e ≤ [(0x1a : Byte), 0x2b].length ∧
      (next? (exec (.wrreg 2 0x0e [0x1a, 0x2b]) s) State.op).isSome = true ∧ u.op ≠ .idle ∧
      u.cfg = s.cfg ∧ u.cfg.readCapable = true ∧ readBytes 2 u = [0x1a, 0x2b] :=
  ⟨by decide, test_fixture_valid, by decide, by decide, by decide, by decide, by decide, rfl,
    by decide, by decide⟩

/-- The reset state's own bytes arrive: `S0` meets the invariant and its step answers a next state. -/
theorem witness_EveryStepKeepsTheInvariant :
    Inv s0 ∧ (next? (step s0) State.op).isSome = true :=
  ⟨{ cfg := test_fixture_valid
     parser := { gate := fun _ => rfl, addrHex := by decide, count := by decide,
                 posBound := by decide, pos := trivial, pending := trivial }
     bus := ⟨rfl, rfl, rfl, rfl, rfl⟩
     calls := fun c h => by cases h }, by decide⟩

theorem witness_NoStepStopsUnderTheInvariant : Inv s0 := witness_EveryStepKeepsTheInvariant.1

end Sys2Proof.Tests
end

/-! The traces `OUT` and `DEV` (R33): the `Reset` step empties them, and everything else the
controller does only appends to them. "Appends" is a relation that every operation of the main loop
respects, so every instruction and every other step does. -/
namespace Sys2Proof.Machine

/-- `OUT` and `DEV` of `t` are those of `s` with something appended (R33). -/
structure TracesExtend (s t : State) : Prop where
  out : s.out <+: t.out
  dev : s.dev <+: t.dev

theorem tracesExtend_iff {s t : State} :
    TracesExtend s t ↔ ∃ printed events, t.out = s.out ++ printed ∧ t.dev = s.dev ++ events := by
  constructor
  · rintro ⟨⟨printed, hout⟩, ⟨events, hdev⟩⟩
    exact ⟨printed, events, hout.symm, hdev.symm⟩
  · rintro ⟨printed, events, hout, hdev⟩
    exact ⟨⟨printed, hout.symm⟩, ⟨events, hdev.symm⟩⟩

theorem TracesExtend.of_eq {s t : State} (hout : t.out = s.out) (hdev : t.dev = s.dev) :
    TracesExtend s t := ⟨hout ▸ List.prefix_rfl, hdev ▸ List.prefix_rfl⟩

theorem TracesExtend.refl (s : State) : TracesExtend s s := .of_eq rfl rfl

theorem TracesExtend.trans {s t u : State} (h : TracesExtend s t) (h' : TracesExtend t u) :
    TracesExtend s u := ⟨h.out.trans h'.out, h.dev.trans h'.dev⟩

/-- The bytes that arrive during a piece of work leave the traces to its effect (R242 (3)). -/
theorem Passes.tracesExtend {f u : State → State} (h : Passes f u) {s : State}
    (hu : TracesExtend s (u s)) : TracesExtend s (f s) := by
  rw [h.eq]
  exact ⟨by simpa using hu.out, by simpa using hu.dev⟩

/-- Transfers and strobes append their events, printed lines their characters; `BUF`, `TEST_BIT`,
`OP` and the parser are no traces. -/
theorem respected_tracesExtend : Respected TracesExtend where
  refl := .refl
  trans := .trans
  strobe _ := passes_strobe.tracesExtend ⟨List.prefix_rfl, List.prefix_append _ _⟩
  write k a data _ _ :=
    (passes_writeTransfer k a data).tracesExtend ⟨List.prefix_rfl, List.prefix_append _ _⟩
  read k a n _ _ :=
    (passes_readTransfer k a n).tracesExtend ⟨List.prefix_rfl, List.prefix_append _ _⟩
  text cs _ := (passes_printLine cs).tracesExtend ⟨List.prefix_append _ _, List.prefix_rfl⟩
  buf _ _ := .of_eq rfl rfl
  toggle _ := .of_eq rfl rfl
  clear _ := .of_eq rfl rfl
  abort _ := .of_eq rfl rfl

theorem parserStep_tracesExtend (b : Byte) (s : State) : TracesExtend s (parserStep b s) := by
  obtain ⟨p, n, o, sl, a, nl, pay, h⟩ := parserStep_frame b s
  rw [h]
  exact .of_eq rfl rfl

theorem callAction_ne_powerOn (c : Call) : callAction c ≠ .powerOn := by
  cases c with
  | strobe => nofun
  | frame slot bytes announce =>
    unfold callAction
    dsimp only
    split <;> nofun

theorem pollAction_ne_powerOn (s : State) : pollAction s ≠ .powerOn := by
  unfold pollAction
  split
  · nofun
  · split <;> nofun

/-- Every action but the reset only appends to the traces. -/
theorem act_tracesExtend {a : Action} {s t : State} (ha : a ≠ .powerOn) (h : act a s = .next t) :
    TracesExtend s t := by
  cases a with
  | powerOn => exact absurd rfl ha
  | parse b =>
    cases h
    exact parserStep_tracesExtend b s
  | run i => exact respected_tracesExtend.exec h
  | strobe =>
    cases h
    exact respected_tracesExtend.strobe s
  | idlePoll =>
    cases h
    exact .refl s
  | badMailbox => cases h
  | badFrame why => cases h

/-- R36, R270: the `Reset` step empties both traces. -/
theorem step_reset_traces {s t : State} (h : step s = .next t)
    (hr : s.input.head? = some .reset) : t.out = [] ∧ t.dev = [] := by
  obtain ⟨rest, hin⟩ := List.head?_eq_some_iff.mp hr
  cases (step_eq (fetch_reset hin)).symm.trans h
  exact ⟨rfl, rfl⟩

/-- R33: every step but the `Reset` step only appends to the traces: taking the event or the call
off its list does not touch them, and the action extends them. -/
theorem step_tracesExtend {s t : State} (h : step s = .next t)
    (hr : s.input.head? ≠ some .reset) : TracesExtend s t := by
  have of_act {a : Action} {u : State} (hs : step s = act a u) (ha : a ≠ .powerOn)
      (hu : TracesExtend s u) : TracesExtend s t :=
    hu.trans (act_tracesExtend ha (hs.symm.trans h))
  rcases step_cases s with ⟨rest, hin, -⟩ | ⟨b, rest, -, -, hs⟩ | ⟨rest, -, hs⟩ |
    ⟨-, c, cs, -, hs⟩ | ⟨-, -, hs⟩
  · exact absurd (congrArg List.head? hin) hr
  · exact of_act (a := .parse b) hs nofun (.of_eq rfl rfl)
  · exact of_act (a := .run .abort) hs nofun (.of_eq rfl rfl)
  · exact of_act hs (callAction_ne_powerOn c) (.of_eq rfl rfl)
  · exact of_act hs (pollAction_ne_powerOn s) (.of_eq rfl rfl)

/-- Settles O3: `Reset` empties the traces, and every other step is an action that extends them. -/
theorem outAndDevStartEmptyAndOnlyGrow : Obligations.OutAndDevStartEmptyAndOnlyGrow :=
  ⟨fun _ => ⟨rfl, rfl⟩, fun _ _ h hr => step_reset_traces h hr,
    fun _ _ h hr => tracesExtend_iff.mp (step_tracesExtend h hr)⟩

end Sys2Proof.Machine

/-! The rows of the Command Parser (40_parser.md): what each transition does in each of its cases. With
the gate open a byte other than `/` takes the row of the parser's state (R110); the rows follow, one
lemma per case, and the statements about the states are read off them. -/
namespace Sys2Proof.Machine

/-! ## Operand digits (R88, R89) -/

theorem slotOfDigit_digitOfSlot (k : Fin 8) : slotOfDigit (digitOfSlot k) = some k := by
  revert k
  decide

theorem slotOfDigit_eq_none_iff {b : Byte} :
    slotOfDigit b = none ↔ b.toNat < 0x31 ∨ 0x38 < b.toNat := by
  unfold slotOfDigit
  split
  · simp only [reduceCtorEq, false_iff]
    omega
  · simp only [true_iff]
    omega

theorem countOfDigit_digitOfCount {n : Fin 16} (h1 : 1 ≤ n.val) (h9 : n.val ≤ 9) :
    countOfDigit (digitOfCount n.val) = some n := by
  revert n
  decide

theorem countOfDigit_eq_none_iff {b : Byte} :
    countOfDigit b = none ↔ b.toNat < 0x31 ∨ 0x39 < b.toNat := by
  unfold countOfDigit
  split
  · simp only [reduceCtorEq, false_iff]
    omega
  · simp only [true_iff]
    omega

/-! The escape byte belongs to no class of operand digits, so a digit is never taken for it (R112). -/

theorem digitOfSlot_ne_slash (k : Fin 8) : digitOfSlot k ≠ 0x2f := by
  revert k
  decide

theorem digitOfCount_ne_slash {n : Fin 16} (h1 : 1 ≤ n.val) : digitOfCount n.val ≠ 0x2f := by
  revert n
  decide

theorem ne_slash_of_isHex {b : Byte} (h : isHex b = true) : b ≠ 0x2f := by
  rintro rfl
  exact absurd h (by decide)

/-- `ADDRC[POS] <- b` and `PAY[POS] <- b` at a position inside the array. -/
theorem setIfInBounds_eq_set {n i : Nat} {digits : Vector Byte n} (h : i < n) (b : Byte) :
    digits.setIfInBounds i b = digits.set i b := by
  ext j hj
  simp only [Vector.getElem_setIfInBounds, Vector.getElem_set]

/-! ## The row a byte takes (R110) -/

section
variable {s : State} {b : Byte}

/-- R112. -/
theorem parserStep_slash (ho : s.op = .idle) : parserStep 0x2f s = abortPartial s := by
  simp [parserStep, ho]

/-- The instruction `ABORT` is the parser's transition on `/`, gate included. -/
theorem exec_abort (s : State) : exec .abort s = .next (parserStep 0x2f s) := rfl

theorem exec_abort_open (ho : s.op = .idle) : exec .abort s = .next (abortPartial s) := by
  rw [exec_abort, parserStep_slash ho]

theorem exec_abort_closed (ho : s.op ≠ .idle) : exec .abort s = .next s := by
  rw [exec_abort, parserStep_closed ho]

theorem parserStep_open (ho : s.op = .idle) (hb : b ≠ 0x2f) : parserStep b s = parseRow b s := by
  simp only [parserStep, ho, ne_eq, not_true_eq_false, if_false, if_neg hb]

theorem parserStep_idle (ho : s.op = .idle) (hs : s.pstate = .idle) (hb : b ≠ 0x2f) :
    parserStep b s = parseIdle b s := by
  simp only [parserStep_open ho hb, parseRow, hs]

theorem parserStep_index (ho : s.op = .idle) (hs : s.pstate = .readingIndex) (hb : b ≠ 0x2f) :
    parserStep b s = parseIndex b s := by
  simp only [parserStep_open ho hb, parseRow, hs]

theorem parserStep_address (ho : s.op = .idle) (hs : s.pstate = .readingRegisterAddress)
    (hb : b ≠ 0x2f) : parserStep b s = parseAddress b s := by
  simp only [parserStep_open ho hb, parseRow, hs]

theorem parserStep_length (ho : s.op = .idle) (hs : s.pstate = .readingDataLength) (hb : b ≠ 0x2f) :
    parserStep b s = parseLength b s := by
  simp only [parserStep_open ho hb, parseRow, hs]

/-! ## `Idle` (R113, R114, R115) -/

theorem parseIdle_index (s : State) : parseIdle 0x49 s = enter .readingIndex 0 s := rfl
theorem parseIdle_reset (s : State) : parseIdle 0x58 s = resolve .reset s := rfl
theorem parseIdle_presence (s : State) : parseIdle 0x3f s = resolve .checkPresence s := rfl

/-- In `Idle` the `PSTATE <- Idle` of a resolution writes what is there. -/
theorem resolve_eq_of_idle (hs : s.pstate = .idle) (k : Kind) : resolve k s = { s with op := k } := by
  rw [resolve, ← hs]

/-! ## `ReadingIndex` (R118, R119, R120, R131) -/

theorem parseIndex_digit (hp : s.pos = 0) (k : Fin 8) :
    parseIndex (digitOfSlot k) s = { s with slot := k, pos := 1 } := by
  simp only [parseIndex, hp, slotOfDigit_digitOfSlot, if_true]

theorem parseIndex_not_digit (hp : s.pos = 0) (hb : b.toNat < 0x31 ∨ 0x38 < b.toNat) :
    parseIndex b s = dropPartial s := by
  simp only [parseIndex, hp, slotOfDigit_eq_none_iff.mpr hb, if_true]

theorem parseIndex_test (hp : s.pos = 1) : parseIndex 0x54 s = resolve .test s := by
  simp [parseIndex, hp]

/-- The format selectors and the states they enter (R120). -/
theorem parseIndex_selector (hp : s.pos = 1) {p : PState}
    (h : (b, p) ∈ [((0x52 : Byte), PState.readingRegisterAddress), (0x46, .readingFrequency),
      (0x41, .readingAmplitude), (0x50, .readingPhase)]) :
    parseIndex b s = enter p 0 s := by
  simp only [List.mem_cons, Prod.mk.injEq, List.not_mem_nil, or_false] at h
  rcases h with ⟨rfl, rfl⟩ | ⟨rfl, rfl⟩ | ⟨rfl, rfl⟩ | ⟨rfl, rfl⟩ <;> simp [parseIndex, hp]

theorem parseIndex_not_selector (hp : s.pos = 1)
    (hb : b ∉ [(0x54 : Byte), 0x52, 0x46, 0x41, 0x50]) : parseIndex b s = dropPartial s := by
  simp only [List.mem_cons, List.not_mem_nil, or_false, not_or] at hb
  obtain ⟨hT, hR, hF, hA, hP⟩ := hb
  simp only [parseIndex, hp, one_ne_zero, if_false, if_true, if_neg hT, if_neg hR, if_neg hF,
    if_neg hA, if_neg hP]

/-! ## `ReadingRegisterAddress` (R121, R122) -/

theorem parseAddress_digit (hp : s.pos < 2) (hb : isHex b = true) :
    parseAddress b s = { s with addrc := s.addrc.set s.pos b, pos := s.pos + 1 } := by
  simp only [parseAddress, hp, hb, if_true, setIfInBounds_eq_set hp]

theorem parseAddress_write (hp : s.pos = 2) :
    parseAddress 0x4c s = enter .readingDataLength 0 s := by
  simp [parseAddress, hp]

/-! ## `ReadingDataLength` (R126, R127, R128) -/

theorem parseLength_digit (hp : s.pos = 0) {n : Fin 16} (h1 : 1 ≤ n.val) (h9 : n.val ≤ 9) :
    parseLength (digitOfCount n.val) s = { s with nlen := n, pos := 1 } := by
  simp only [parseLength, hp, countOfDigit_digitOfCount h1 h9, if_true]

theorem parseLength_not_digit (hp : s.pos = 0) (hb : b.toNat < 0x31 ∨ 0x39 < b.toNat) :
    parseLength b s = dropPartial s := by
  simp only [parseLength, hp, countOfDigit_eq_none_iff.mpr hb, if_true]

theorem parseLength_marker (hp : s.pos = 1) : parseLength 0x44 s = enter .readingData 0 s := by
  simp [parseLength, hp]

theorem parseLength_not_marker (hp : s.pos = 1) (hb : b ≠ 0x44) :
    parseLength b s = dropPartial s := by
  simp only [parseLength, hp, one_ne_zero, if_false, if_true, if_neg hb]

/-! ## The payload states (R129, R130, R132, R134, R136) -/

theorem storeDigit_eq_set (hp : s.pos < 18) (b : Byte) :
    storeDigit b s = { s with pay := s.pay.set s.pos b, pos := s.pos + 1 } := by
  rw [storeDigit, setIfInBounds_eq_set hp]

theorem parseDigit_more {bound : Nat} (k : Kind) (hb : isHex b = true) (hp : s.pos + 1 ≠ bound) :
    parseDigit bound k b s = storeDigit b s := by
  simp [parseDigit, hb, hp]

theorem parseDigit_last {bound : Nat} (k : Kind) (hb : isHex b = true) (hp : s.pos + 1 = bound) :
    parseDigit bound k b s = resolve k (storeDigit b s) := by
  simp [parseDigit, hb, hp]

theorem parseDigit_not_hex (bound : Nat) (k : Kind) (hb : isHex b = false) :
    parseDigit bound k b s = dropPartial s := by
  simp [parseDigit, hb]

/-- `PSTATE` is a payload state whose command is of kind `k` and complete after `bound` digits. -/
inductive Payload (s : State) : Nat → Kind → Prop where
  | data (hs : s.pstate = .readingData) : Payload s (2 * s.nlen.val) .writeRegister
  | frequency (hs : s.pstate = .readingFrequency) : Payload s 8 .setFrequency
  | amplitude (hs : s.pstate = .readingAmplitude) : Payload s 4 .setAmplitude
  | phase (hs : s.pstate = .readingPhase) : Payload s 4 .setPhase

/-- The four payload states share one row. -/
theorem Payload.parserStep_eq {bound : Nat} {k : Kind} (h : Payload s bound k) (ho : s.op = .idle)
    (hb : b ≠ 0x2f) : parserStep b s = parseDigit bound k b s := by
  rw [parserStep_open ho hb]
  cases h with
  | data hs => simp only [parseRow, hs, parseData]
  | frequency hs => simp only [parseRow, hs, parseFrequency]
  | amplitude hs => simp only [parseRow, hs, parseAmplitude]
  | phase hs => simp only [parseRow, hs, parsePhase]

end

/-! ## The statements -/

/-- Settles O21: in each payload state the row is `parseDigit`, whose three cases are the clauses. -/
theorem payloadDigitsAreStoredAndTheLastResolves :
    Obligations.PayloadDigitsAreStoredAndTheLastResolves := by
  rintro s b bound k p hp ho rfl - hstate
  have payload : Payload s bound k := by
    rcases hstate with ⟨hs, rfl, rfl⟩ | ⟨hs, rfl, rfl⟩ | ⟨hs, rfl, rfl⟩ | ⟨hs, rfl, rfl⟩
    · exact .data hs
    · exact .frequency hs
    · exact .amplitude hs
    · exact .phase hs
  refine ⟨fun hx hmore => ?_, fun hx hlast => ?_, fun _ hx hb => ?_⟩
  · rw [payload.parserStep_eq ho (ne_slash_of_isHex hx), parseDigit_more k hx hmore.ne,
      storeDigit_eq_set hp]
  · rw [payload.parserStep_eq ho (ne_slash_of_isHex hx), parseDigit_last k hx hlast,
      storeDigit_eq_set hp]
    rfl
  · rw [payload.parserStep_eq ho hb, parseDigit_not_hex bound k hx]
    rfl

/-- Settles O14: the gate decides; open, both the instruction and the transition are
`abortPartial`. -/
theorem abortReturnsTheParserToIdle : Obligations.AbortReturnsTheParserToIdle := by
  intro s
  exact ⟨fun ho => ⟨exec_abort_open ho, parserStep_slash ho⟩, exec_abort_closed⟩

/-- Settles O15: the rows of `Idle` for the three bytes. -/
theorem idleStartsIndexedAndResolvesSingleCharacters :
    Obligations.IdleStartsIndexedAndResolvesSingleCharacters := by
  intro s ho hs
  refine ⟨?_, ?_, ?_⟩ <;> rw [parserStep_idle ho hs (by decide)]
  · rw [parseIdle_index, enter]
  · rw [parseIdle_reset, resolve_eq_of_idle hs]
  · rw [parseIdle_presence, resolve_eq_of_idle hs]

/-- Settles O17: the rows of `ReadingIndex` at its two positions. -/
theorem indexStateFollowsItsRows : Obligations.IndexStateFollowsItsRows := by
  intro s ho hs
  have row {b : Byte} (hb : b ≠ 0x2f) : parserStep b s = parseIndex b s := parserStep_index ho hs hb
  refine ⟨fun hp k => ?_, fun hp b hb hout => ?_, fun hp => ⟨?_, ?_, ?_, ?_, ?_, fun b hb => ?_⟩⟩
  · exact (row (digitOfSlot_ne_slash k)).trans (parseIndex_digit hp k)
  · exact (row hb).trans (parseIndex_not_digit hp hout)
  · exact (row (by decide)).trans (parseIndex_test hp)
  · exact (row (by decide)).trans (parseIndex_selector hp (by decide))
  · exact (row (by decide)).trans (parseIndex_selector hp (by decide))
  · exact (row (by decide)).trans (parseIndex_selector hp (by decide))
  · exact (row (by decide)).trans (parseIndex_selector hp (by decide))
  · obtain ⟨hslash, hsel⟩ := List.ne_and_not_mem_of_not_mem_cons hb
    exact (row hslash).trans (parseIndex_not_selector hp hsel)

/-- Settles O18: a digit goes to `ADDRC[POS]`, and `L` after two of them continues into a write. -/
theorem addressDigitsAreStoredAndLContinues : Obligations.AddressDigitsAreStoredAndLContinues := by
  intro s ho hs
  constructor
  · rintro p hlt b rfl hb
    exact (parserStep_address ho hs (ne_slash_of_isHex hb)).trans (parseAddress_digit hlt hb)
  · intro hp
    exact (parserStep_address ho hs (by decide)).trans (parseAddress_write hp)

/-- Settles O20: the rows of `ReadingDataLength` at its two positions. -/
theorem lengthStateFollowsItsRows : Obligations.LengthStateFollowsItsRows := by
  intro s ho hs
  have row {b : Byte} (hb : b ≠ 0x2f) : parserStep b s = parseLength b s := parserStep_length ho hs hb
  refine ⟨fun hp n h1 h9 => ?_, fun hp b hb hout => ?_, fun hp => ?_, fun hp b hb hD => ?_⟩
  · exact (row (digitOfCount_ne_slash h1)).trans (parseLength_digit hp h1 h9)
  · exact (row hb).trans (parseLength_not_digit hp hout)
  · exact (row (by decide)).trans (parseLength_marker hp)
  · exact (row hb).trans (parseLength_not_marker hp hD)

end Sys2Proof.Machine

/-! The two encodings (30_encoding.md). Each part of the decoder is inverted once: `takeHexBytes`,
`decodeRegister`, `decodeIndexed` answer exactly on the bytes the encoder writes for their part, a
read's terminator apart. -/
namespace Sys2Proof.Machine

/-! ## Hex digits (R88, R174) -/

theorem isHex_iff {c : Byte} : isHex c = true ↔
    (0x30 ≤ c.toNat ∧ c.toNat ≤ 0x39) ∨ (0x61 ≤ c.toNat ∧ c.toNat ≤ 0x66) := by
  simp [isHex]

/-- `HexVal` is defined on the class `HEX` and nowhere else. -/
theorem isHex_iff_hexVal_isSome {c : Byte} : isHex c = true ↔ (hexVal c).isSome = true := by
  rw [isHex_iff, hexVal]
  split_ifs <;> simp <;> omega

theorem hexVal_hexDigit {n : Nat} (h : n < 16) : hexVal (hexDigit n) = some n := by
  have all : ∀ k : Fin 16, hexVal (hexDigit k.val) = some k.val := by decide
  exact all ⟨n, h⟩

theorem isHex_hexDigit {n : Nat} (h : n < 16) : isHex (hexDigit n) = true := by
  rw [isHex_iff_hexVal_isSome, hexVal_hexDigit h, Option.isSome_some]

/-- A hex digit is the digit of its value. -/
theorem hexDigit_of_hexVal {c : Byte} {n : Nat} (h : hexVal c = some n) :
    n < 16 ∧ hexDigit n = c := by
  unfold hexVal at h
  split_ifs at h <;> cases h <;> refine ⟨by omega, BitVec.eq_of_toNat_eq ?_⟩
  · rw [hexDigit, if_pos (by omega), BitVec.toNat_ofNat]
    omega
  · rw [hexDigit, if_neg (by omega), BitVec.toNat_ofNat]
    omega

/-- `HexByte` undoes `Hex2`, and is defined on nothing else. -/
theorem hexByte_eq_some_iff {c0 c1 v : Byte} : hexByte c0 c1 = some v ↔ hex2 v = [c0, c1] := by
  constructor
  · intro h
    unfold hexByte at h
    split at h
    · rename_i hi lo h0 h1
      cases h
      obtain ⟨hhi, rfl⟩ := hexDigit_of_hexVal h0
      obtain ⟨hlo, rfl⟩ := hexDigit_of_hexVal h1
      have hv : (BitVec.ofNat 8 (16 * hi + lo)).toNat = 16 * hi + lo := by
        rw [BitVec.toNat_ofNat]
        omega
      have hdiv : (16 * hi + lo) / 16 = hi := by omega
      have hmod : (16 * hi + lo) % 16 = lo := by omega
      simp only [hex2, hv, hdiv, hmod]
    · cases h
  · intro h
    obtain ⟨rfl, rfl⟩ : hexDigit (v.toNat / 16) = c0 ∧ hexDigit (v.toNat % 16) = c1 := by
      simpa [hex2] using h
    have hv := v.isLt
    have hdm : 16 * (v.toNat / 16) + v.toNat % 16 = v.toNat := Nat.div_add_mod _ _
    rw [hexByte, hexVal_hexDigit (by omega), hexVal_hexDigit (by omega)]
    simp only [hdm, BitVec.ofNat_toNat, BitVec.setWidth_eq]

theorem isHex_of_hexByte {c0 c1 v : Byte} (h : hexByte c0 c1 = some v) :
    isHex c0 = true ∧ isHex c1 = true := by
  obtain ⟨rfl, rfl⟩ : hexDigit (v.toNat / 16) = c0 ∧ hexDigit (v.toNat % 16) = c1 := by
    simpa [hex2] using hexByte_eq_some_iff.mp h
  exact ⟨isHex_hexDigit (by have := v.isLt; omega), isHex_hexDigit (by omega)⟩

/-- Two hex digits spell a byte. -/
theorem hexByte_of_isHex {c0 c1 : Byte} (h0 : isHex c0 = true) (h1 : isHex c1 = true) :
    ∃ v, hexByte c0 c1 = some v := by
  obtain ⟨hi, h0⟩ := Option.isSome_iff_exists.mp (isHex_iff_hexVal_isSome.mp h0)
  obtain ⟨lo, h1⟩ := Option.isSome_iff_exists.mp (isHex_iff_hexVal_isSome.mp h1)
  exact ⟨_, by rw [hexByte, h0, h1]⟩

@[simp] theorem hexDigits_nil : hexDigits [] = [] := rfl

theorem hexDigits_cons (v : Byte) (data : List Byte) :
    hexDigits (v :: data) = hex2 v ++ hexDigits data := rfl

theorem isHex_of_mem_hexDigits {data : List Byte} {b : Byte} (h : b ∈ hexDigits data) :
    isHex b = true := by
  obtain ⟨v, -, hb⟩ := List.mem_flatMap.mp h
  obtain ⟨h0, h1⟩ := isHex_of_hexByte (hexByte_eq_some_iff.mpr (rfl : hex2 v = _))
  simp only [hex2, List.mem_cons, List.not_mem_nil, or_false] at hb
  rcases hb with rfl | rfl
  · exact h0
  · exact h1

/-! ## Operands (R89) -/

theorem slotOfDigit_eq_some {b : Byte} {k : Fin 8} (h : slotOfDigit b = some k) :
    b = digitOfSlot k := by
  unfold slotOfDigit at h
  split at h
  · cases h
    apply BitVec.eq_of_toNat_eq
    simp only [digitOfSlot, BitVec.toNat_ofNat]
    omega
  · cases h

theorem countOfDigit_eq_some {b : Byte} {n : Fin 16} (h : countOfDigit b = some n) :
    b = digitOfCount n.val := by
  unfold countOfDigit at h
  split at h
  · cases h
    apply BitVec.eq_of_toNat_eq
    simp only [digitOfCount, BitVec.toNat_ofNat]
    omega
  · cases h

theorem countOk_iff {data : List Byte} :
    countOk data = true ↔ 1 ≤ data.length ∧ data.length ≤ 9 := by
  simp [countOk]

/-- `takeHexBytes` reads back the digits of n bytes, and nothing else. -/
theorem takeHexBytes_eq_ok_iff {n : Nat} {bs data rest : List Byte} :
    takeHexBytes n bs = .ok (data, rest) ↔ data.length = n ∧ bs = hexDigits data ++ rest := by
  induction n generalizing bs data with
  | zero => cases data <;> simp [takeHexBytes, eq_comm]
  | succ n ih =>
    constructor
    · intro h
      match bs, h with
      | [], h => cases h
      | [c0], h => cases h
      | c0 :: c1 :: bs, h =>
        unfold takeHexBytes at h
        split at h
        · cases h
        · rename_i v hv
          split at h <;> cases h
          rename_i vs hvs
          obtain ⟨hlen, rfl⟩ := ih.mp hvs
          refine ⟨by rw [List.length_cons, hlen], ?_⟩
          rw [hexDigits_cons, hexByte_eq_some_iff.mp hv]
          rfl
    · rintro ⟨hlen, rfl⟩
      obtain ⟨v, vs, rfl⟩ := List.exists_cons_of_length_eq_add_one hlen
      have hv : hexByte (hexDigit (v.toNat / 16)) (hexDigit (v.toNat % 16)) = some v :=
        hexByte_eq_some_iff.mpr rfl
      have hvs : takeHexBytes n (hexDigits vs ++ rest) = .ok (vs, rest) :=
        ih.mpr ⟨Nat.succ.inj hlen, rfl⟩
      simp only [hexDigits_cons, hex2, List.cons_append, List.nil_append, takeHexBytes, hv, hvs]

/-- The digits end too early only after digits, and before the last one. -/
theorem takeHexBytes_eq_truncated {n : Nat} {bs : List Byte}
    (h : takeHexBytes n bs = .error .truncated) :
    (∀ b ∈ bs, isHex b = true) ∧ bs.length < 2 * n := by
  induction n generalizing bs with
  | zero => cases h
  | succ n ih =>
    match bs, h with
    | [], _ => exact ⟨by simp, by simp⟩
    | [c0], h =>
      have hx : isHex c0 = true := by
        by_contra hx
        simp [takeHexBytes, hx] at h
      exact ⟨by simpa using hx, by simp; omega⟩
    | c0 :: c1 :: bs, h =>
      unfold takeHexBytes at h
      split at h
      · cases h
      · rename_i v hv
        split at h <;> cases h
        rename_i hbs
        obtain ⟨hall, hlen⟩ := ih hbs
        obtain ⟨h0, h1⟩ := isHex_of_hexByte hv
        exact ⟨by simpa [h0, h1] using hall, by simp only [List.length_cons]; omega⟩

/-! ## Commands, part by part -/

/-- What may stand after `I<N>R<AA>`: the terminator of a read, or the rest of a write. -/
theorem decodeRegister_eq_ok_iff {slot : Fin 8} {addr : Byte} {bs rest : List Byte} {i : Instr} :
    decodeRegister slot addr bs = .ok (i, rest) ↔
      (∃ t : Byte, t ≠ 0x4c ∧ t ≠ 0x2f ∧ i = .rdreg slot addr ∧ bs = t :: rest) ∨
      ∃ data, countOk data = true ∧ i = .wrreg slot addr data ∧
        bs = 0x4c :: digitOfCount data.length :: 0x44 :: (hexDigits data ++ rest) := by
  constructor
  · intro h
    match bs, h with
    | [], h => cases h
    | b :: bs, h =>
      simp only [decodeRegister] at h
      split_ifs at h with hslash hL
      · subst hL
        match bs, h with
        | l :: bs, h =>
          dsimp only at h
          split at h
          · cases h
          · rename_i n hn
            match bs, h with
            | d :: bs, h =>
              dsimp only at h
              split_ifs at h with hD
              split at h <;> cases h
              rename_i hdata
              obtain ⟨hlen, rfl⟩ := takeHexBytes_eq_ok_iff.mp hdata
              have hcount := countOfDigit_bounds hn
              refine .inr ⟨_, countOk_iff.mpr (by omega), rfl, ?_⟩
              rw [countOfDigit_eq_some hn, hD, hlen]
      · cases h
        exact .inl ⟨b, hL, hslash, rfl, rfl⟩
  · rintro (⟨t, hL, hslash, rfl, rfl⟩ | ⟨data, hcount, rfl, rfl⟩)
    · simp only [decodeRegister, if_neg hslash, if_neg hL]
    · obtain ⟨h1, h9⟩ := countOk_iff.mp hcount
      have hn : countOfDigit (digitOfCount data.length) = some ⟨data.length, by omega⟩ :=
        countOfDigit_digitOfCount (n := ⟨data.length, by omega⟩) h1 h9
      have hdata : takeHexBytes data.length (hexDigits data ++ rest) = .ok (data, rest) :=
        takeHexBytes_eq_ok_iff.mpr ⟨rfl, rfl⟩
      simp [decodeRegister, hn, hdata]

/-- The bytes of a command and what follows them: the encoding, but that a read may end in any byte
but `L` and `/` (R81, decision D7). -/
structure Spelled (i : Instr) (rest bs : List Byte) : Prop where
  wellFormed : i.wellFormed = true
  command : i.isFrame = false
  encoded : (∀ slot addr, i ≠ .rdreg slot addr) → bs = encode i ++ rest
  read : ∀ slot addr, i = .rdreg slot addr → ∃ t : Byte, t ≠ 0x4c ∧ t ≠ 0x2f ∧
    bs = [0x49, digitOfSlot slot, 0x52] ++ hex2 addr ++ t :: rest

theorem Spelled.of_encode {i : Instr} {rest bs : List Byte} (hw : i.wellFormed = true)
    (hc : i.isFrame = false) (hr : ∀ slot addr, i ≠ .rdreg slot addr) (hb : bs = encode i ++ rest) :
    Spelled i rest bs :=
  ⟨hw, hc, fun _ => hb, fun slot addr h => absurd h (hr slot addr)⟩

/-- What may stand after `I<N>`. -/
theorem spelled_of_decodeIndexed {slot : Fin 8} {bs rest : List Byte} {i : Instr}
    (h : decodeIndexed slot bs = .ok (i, rest)) :
    Spelled i rest (0x49 :: digitOfSlot slot :: bs) := by
  match bs, h with
  | [], h => cases h
  | b :: bs, h =>
    simp only [decodeIndexed] at h
    split_ifs at h with hT hR hF hA hP
    · cases h
      exact .of_encode rfl rfl nofun (by rw [hT]; rfl)
    · subst hR
      split at h
      · cases h
      · rename_i addr after hd
        obtain ⟨-, rfl⟩ := takeHexBytes_eq_ok_iff.mp hd
        rcases decodeRegister_eq_ok_iff.mp h with ⟨t, hL, hslash, rfl, rfl⟩ | ⟨data, hc, rfl, rfl⟩
        · refine ⟨rfl, rfl, fun hne => absurd rfl (hne slot addr), ?_⟩
          rintro _ _ ⟨⟩
          exact ⟨t, hL, hslash, by simp [hexDigits_cons]⟩
        · exact .of_encode hc rfl nofun (by simp [encode, hexDigits_cons])
      · cases h
    · split at h <;> cases h
      rename_i hd
      obtain ⟨-, rfl⟩ := takeHexBytes_eq_ok_iff.mp hd
      exact .of_encode rfl rfl nofun (by rw [hF]; simp [encode])
    · split at h <;> cases h
      rename_i hd
      obtain ⟨-, rfl⟩ := takeHexBytes_eq_ok_iff.mp hd
      exact .of_encode rfl rfl nofun (by rw [hA]; simp [encode])
    · split at h <;> cases h
      rename_i hd
      obtain ⟨-, rfl⟩ := takeHexBytes_eq_ok_iff.mp hd
      exact .of_encode rfl rfl nofun (by rw [hP]; simp [encode])

theorem takeToken_eq_ok {es bs rest : List Byte} (h : takeToken es bs = .ok rest) :
    bs = es ++ rest := by
  induction es generalizing bs with
  | nil =>
    cases h
    rfl
  | cons e es ih =>
    match bs, h with
    | [], h => cases h
    | b :: bs, h =>
      unfold takeToken at h
      split_ifs at h with hb
      rw [hb, ih h, List.cons_append]

theorem spelled_of_decodeIdn {bs rest : List Byte} {i : Instr}
    (h : decodeIdn bs = .ok (i, rest)) : Spelled i rest (0x2a :: bs) := by
  unfold decodeIdn at h
  split at h <;> cases h
  rename_i hd
  exact .of_encode rfl rfl nofun (by rw [takeToken_eq_ok hd]; rfl)

/-- Only the encodings decode. -/
theorem spelled_of_decodeCommand {bs rest : List Byte} {i : Instr}
    (h : decodeCommand bs = .ok (i, rest)) : Spelled i rest bs := by
  match bs, h with
  | [], h => cases h
  | b :: bs, h =>
    simp only [decodeCommand] at h
    split_ifs at h with hX hQ hS hStar hI
    · cases h
      exact .of_encode rfl rfl nofun (by rw [hX]; rfl)
    · cases h
      exact .of_encode rfl rfl nofun (by rw [hQ]; rfl)
    · cases h
      exact .of_encode rfl rfl nofun (by rw [hS]; rfl)
    · exact hStar ▸ spelled_of_decodeIdn h
    · match bs, h with
      | [], h => cases h
      | n :: bs, h =>
        dsimp only at h
        split at h
        · cases h
        · rename_i slot hslot
          rw [hI, slotOfDigit_eq_some hslot]
          exact spelled_of_decodeIndexed h

/-! Decoding an encoding. -/

theorem decodeCommand_indexed (slot : Fin 8) (bs : List Byte) :
    decodeCommand (0x49 :: digitOfSlot slot :: bs) = decodeIndexed slot bs := by
  simp [decodeCommand, slotOfDigit_digitOfSlot]

theorem decodeIndexed_register (slot : Fin 8) (addr : Byte) (bs : List Byte) :
    decodeIndexed slot (0x52 :: (hex2 addr ++ bs)) = decodeRegister slot addr bs := by
  have h : takeHexBytes 1 (hex2 addr ++ bs) = .ok ([addr], bs) :=
    takeHexBytes_eq_ok_iff.mpr ⟨rfl, by simp [hexDigits_cons]⟩
  simp [decodeIndexed, h]

/-- The word of a command of n bytes is read back. -/
theorem takeHexBytes_hexDigits (data rest : List Byte) :
    takeHexBytes data.length (hexDigits data ++ rest) = .ok (data, rest) :=
  takeHexBytes_eq_ok_iff.mpr ⟨rfl, rfl⟩

theorem decodeCommand_encode (i : Instr) (rest : List Byte) (hw : i.wellFormed = true)
    (hc : i.isFrame = false) : decodeCommand (encode i ++ rest) = .ok (i, rest) := by
  cases i with
  | resetAll => rfl
  | presence => rfl
  | abort => rfl
  | idn => rfl
  | test slot => exact decodeCommand_indexed slot (0x54 :: rest)
  | rdreg slot addr =>
    calc decodeCommand (encode (.rdreg slot addr) ++ rest)
      _ = decodeCommand (0x49 :: digitOfSlot slot :: 0x52 :: (hex2 addr ++ 0x0a :: rest)) := by
        simp [encode]
      _ = decodeRegister slot addr (0x0a :: rest) := by
        rw [decodeCommand_indexed, decodeIndexed_register]
      _ = .ok (.rdreg slot addr, rest) :=
        decodeRegister_eq_ok_iff.mpr (.inl ⟨0x0a, by decide, by decide, rfl, rfl⟩)
  | wrreg slot addr data =>
    calc decodeCommand (encode (.wrreg slot addr data) ++ rest)
      _ = decodeCommand (0x49 :: digitOfSlot slot :: 0x52 :: (hex2 addr ++
            0x4c :: digitOfCount data.length :: 0x44 :: (hexDigits data ++ rest))) := by
        simp [encode]
      _ = decodeRegister slot addr
            (0x4c :: digitOfCount data.length :: 0x44 :: (hexDigits data ++ rest)) := by
        rw [decodeCommand_indexed, decodeIndexed_register]
      _ = .ok (.wrreg slot addr data, rest) :=
        decodeRegister_eq_ok_iff.mpr (.inr ⟨data, hw, rfl, rfl⟩)
  | setf slot f0 f1 f2 f3 =>
    have h := takeHexBytes_hexDigits [f0, f1, f2, f3] rest
    calc decodeCommand (encode (.setf slot f0 f1 f2 f3) ++ rest)
      _ = decodeIndexed slot (0x46 :: (hexDigits [f0, f1, f2, f3] ++ rest)) :=
        decodeCommand_indexed slot _
      _ = .ok (.setf slot f0 f1 f2 f3, rest) := by
        simp only [List.length_cons, List.length_nil] at h
        simp [decodeIndexed, h]
  | seta slot w0 w1 =>
    have h := takeHexBytes_hexDigits [w0, w1] rest
    calc decodeCommand (encode (.seta slot w0 w1) ++ rest)
      _ = decodeIndexed slot (0x41 :: (hexDigits [w0, w1] ++ rest)) := decodeCommand_indexed slot _
      _ = .ok (.seta slot w0 w1, rest) := by
        simp only [List.length_cons, List.length_nil] at h
        simp [decodeIndexed, h]
  | setp slot w0 w1 =>
    have h := takeHexBytes_hexDigits [w0, w1] rest
    calc decodeCommand (encode (.setp slot w0 w1) ++ rest)
      _ = decodeIndexed slot (0x50 :: (hexDigits [w0, w1] ++ rest)) := decodeCommand_indexed slot _
      _ = .ok (.setp slot w0 w1, rest) := by
        simp only [List.length_cons, List.length_nil] at h
        simp [decodeIndexed, h]
  | spiWr slot a data => cases hc
  | spiRd slot a announce => cases hc

/-! ## Frames (R91 to R93) -/

/-- Bit 7 of the address byte is clear in a write frame and set in a read frame; the other bits are
the address. -/
theorem writeAddress_bits (a : RegAddr) :
    (a.setWidth 8 : Byte).getLsbD 7 = false ∧ (a.setWidth 8 : Byte).setWidth 7 = a := by
  constructor
  · simp
  · ext j hj
    simp

theorem readAddress_bits (a : RegAddr) :
    (a.setWidth 8 ||| 0x80 : Byte).getLsbD 7 = true ∧
      (a.setWidth 8 ||| 0x80 : Byte).setWidth 7 = a := by
  revert a
  decide

theorem decodeFrame_write {slot : Fin 8} {o : Byte} {data : List Byte} (announce : Bool)
    (hs : wiredSlot slot = true) (ho : o.getLsbD 7 = false) (hd : payloadOk data = true) :
    decodeFrame slot announce (o :: data) = .ok (.spiWr slot (o.setWidth 7) data) := by
  simp only [decodeFrame, hs, ho, hd, Bool.not_true, Bool.false_eq_true, if_false, if_true]

theorem decodeFrame_read {slot : Fin 8} {o : Byte} {zeros : List Byte} (announce : Bool)
    (hs : wiredSlot slot = true) (ho : o.getLsbD 7 = true) (hz : ∀ b ∈ zeros, b = 0) :
    decodeFrame slot announce (o :: zeros) = .ok (.spiRd slot (o.setWidth 7) announce) := by
  have hall : zeros.all (· == 0) = true := by simpa [List.all_eq_true] using hz
  simp only [decodeFrame, hs, ho, hall, Bool.not_true, Bool.false_eq_true, if_false, if_true]

/-! ## The statements -/

/-- Settles O8, by the parts of the command. -/
theorem commandsDecodeFromTheirEncoding : Obligations.CommandsDecodeFromTheirEncoding :=
  decodeCommand_encode

/-- Settles O10: every part of the decoder answers only on what its part of the encoder writes. -/
theorem decodedBytesAreTheEncoding : Obligations.DecodedBytesAreTheEncoding := by
  intro bs rest i h
  obtain ⟨hw, hc, hencoded, hread⟩ := spelled_of_decodeCommand h
  exact ⟨hw, hc, hencoded, hread⟩

/-- Settles O9: bit 7 of the address byte tells the two frames apart. -/
theorem framesDecodeFromTheirEncoding : Obligations.FramesDecodeFromTheirEncoding := by
  constructor
  · intro slot a data announce hw
    obtain ⟨hs, hd⟩ : wiredSlot slot = true ∧ payloadOk data = true := by
      simpa [Instr.wellFormed] using hw
    obtain ⟨hbit, haddr⟩ := writeAddress_bits a
    rw [encode, decodeFrame_write announce hs hbit hd, haddr]
  · intro slot a announce n hw
    obtain ⟨hbit, haddr⟩ := readAddress_bits a
    rw [encode, List.singleton_append,
      decodeFrame_read announce hw hbit fun b hb => List.eq_of_mem_replicate hb, haddr]

/-- Settles O11. -/
theorem hexDigitsRoundTrip : Obligations.HexDigitsRoundTrip := by
  refine ⟨fun v => ?_, fun c => isHex_iff_hexVal_isSome, fun c hA hZ => ?_⟩
  · have hv : hexByte _ _ = some v := hexByte_eq_some_iff.mpr rfl
    obtain ⟨h0, h1⟩ := isHex_of_hexByte hv
    exact ⟨_, _, rfl, h0, h1, hv⟩
  · rw [Bool.eq_false_iff, Ne, isHex_iff]
    omega

/-- Settles O7: the decoder, run on the twelve words. -/
theorem wordsOfTheSpecDecode : Obligations.WordsOfTheSpecDecode := by
  unfold Obligations.WordsOfTheSpecDecode
  decide

end Sys2Proof.Machine

/-! The parser against the decoder (40_parser.md section 9). The rows of the states that are left,
then one lemma for each part of the decoder: from the parser state that stands for the bytes so far,
the parser makes of the rest what the decoder makes of it. -/
namespace Sys2Proof.Machine

/-! ## Rows of `Idle`, `ReadingIdn` and `ReadingRegisterAddress` -/

section
variable {s : State} {b : Byte}

theorem parserStep_idn (ho : s.op = .idle) (hs : s.pstate = .readingIdn) (hb : b ≠ 0x2f) :
    parserStep b s = parseIdn b s := by
  simp only [parserStep_open ho hb, parseRow, hs]

/-- Bytes that follow a resolved command find the gate closed (R111). -/
theorem parseBytes_resolve {k : Kind} (hk : k ≠ .idle) (bs : List Byte) (s : State) :
    parseBytes bs (resolve k s) = resolve k s := parseBytes_closed hk bs

theorem parseIdle_star (s : State) : parseIdle 0x2a s = enter .readingIdn 1 s := rfl

/-- R125. -/
theorem parseIdle_other (s : State) (hI : b ≠ 0x49) (hX : b ≠ 0x58) (hQ : b ≠ 0x3f)
    (hStar : b ≠ 0x2a) : parseIdle b s = s := by
  simp only [parseIdle, if_neg hI, if_neg hX, if_neg hQ, if_neg hStar]

theorem parseIdn_more (hb : idnChar s.pos = some b) (hp : s.pos ≠ 4) :
    parseIdn b s = advance s := by
  simp only [parseIdn, if_pos hb, if_neg hp]

theorem parseIdn_last (hb : idnChar s.pos = some b) (hp : s.pos = 4) :
    parseIdn b s = resolve .identify s := by
  simp only [parseIdn, if_pos hb, if_pos hp]

theorem parseIdn_mismatch (hb : idnChar s.pos ≠ some b) : parseIdn b s = dropPartial s := by
  simp only [parseIdn, if_neg hb]

/-- No character of the token is the escape byte. -/
theorem idnChar_ne_slash {p : Nat} (h : idnChar p = some b) : b ≠ 0x2f := by
  unfold idnChar at h
  split at h <;> cases h <;> decide

theorem parseAddress_not_digit (hp : s.pos < 2) (hb : isHex b = false) :
    parseAddress b s = dropPartial s := by
  simp [parseAddress, hp, hb]

theorem parseAddress_terminator (hp : s.pos = 2) (hb : b ≠ 0x4c) :
    parseAddress b s = resolve .readRegister s := by
  simp only [parseAddress, hp, lt_irrefl, if_false, if_neg hb]

/-- Before its two digits the address state resolves nothing. -/
theorem parserStep_address_op (ho : s.op = .idle) (hs : s.pstate = .readingRegisterAddress)
    (hp : s.pos < 2) (b : Byte) : (parserStep b s).op = .idle := by
  by_cases hb : b = 0x2f
  · rw [hb, parserStep_slash ho]
    exact ho
  · rw [parserStep_address ho hs hb]
    cases hx : isHex b with
    | true =>
      rw [parseAddress_digit hp hx]
      exact ho
    | false => rw [parseAddress_not_digit hp hx, dropPartial_op, ho]

/-! ## Payload digits one after the other (R129, R130, R132, R134, R136) -/

/-- The digits stored in `PAY` from `POS` on. -/
def storeDigits (ds : List Byte) (s : State) : State := ds.foldl (fun t b => storeDigit b t) s

@[simp] theorem storeDigits_nil (s : State) : storeDigits [] s = s := rfl
@[simp] theorem storeDigits_cons (d : Byte) (ds : List Byte) (s : State) :
    storeDigits (d :: ds) s = storeDigits ds (storeDigit d s) := rfl

theorem storeDigits_concat (ds : List Byte) (d : Byte) (s : State) :
    storeDigits (ds ++ [d]) s = storeDigit d (storeDigits ds s) := by
  simp [storeDigits, List.foldl_append]

/-- Storing digits writes `PAY` and `POS`. -/
theorem storeDigits_frame (ds : List Byte) (s : State) :
    ∃ pay, storeDigits ds s = { s with pay := pay, pos := s.pos + ds.length } := by
  induction ds generalizing s with
  | nil => exact ⟨s.pay, rfl⟩
  | cons d ds ih =>
    obtain ⟨pay, h⟩ := ih (storeDigit d s)
    exact ⟨pay, by rw [storeDigits_cons, h]; simp [storeDigit, Nat.add_assoc, Nat.add_comm 1]⟩

@[simp] theorem storeDigits_op (ds : List Byte) (s : State) : (storeDigits ds s).op = s.op := by
  obtain ⟨pay, h⟩ := storeDigits_frame ds s
  rw [h]
@[simp] theorem storeDigits_slot (ds : List Byte) (s : State) :
    (storeDigits ds s).slot = s.slot := by
  obtain ⟨pay, h⟩ := storeDigits_frame ds s
  rw [h]
@[simp] theorem storeDigits_addrc (ds : List Byte) (s : State) :
    (storeDigits ds s).addrc = s.addrc := by
  obtain ⟨pay, h⟩ := storeDigits_frame ds s
  rw [h]
@[simp] theorem storeDigits_nlen (ds : List Byte) (s : State) :
    (storeDigits ds s).nlen = s.nlen := by
  obtain ⟨pay, h⟩ := storeDigits_frame ds s
  rw [h]
@[simp] theorem storeDigits_pos (ds : List Byte) (s : State) :
    (storeDigits ds s).pos = s.pos + ds.length := by
  obtain ⟨pay, h⟩ := storeDigits_frame ds s
  rw [h]

/-- The digits follow those stored before. -/
theorem storeDigits_pay (ds : List Byte) (s : State) (h : s.pos + ds.length ≤ 18) :
    (storeDigits ds s).pay.toList.take (s.pos + ds.length) = s.pay.toList.take s.pos ++ ds := by
  induction ds generalizing s with
  | nil => simp
  | cons d ds ih =>
    have hlen : s.pos + (d :: ds).length = (storeDigit d s).pos + ds.length := by
      simp only [List.length_cons, storeDigit_pos]
      omega
    have hp : s.pos < s.pay.toList.length := by
      simp only [List.length_cons, Vector.length_toList] at h ⊢
      omega
    rw [storeDigits_cons, hlen, ih (storeDigit d s) (by omega), storeDigit_pay, storeDigit_pos,
      Vector.toList_setIfInBounds, List.take_add_one, List.take_set_of_le (Nat.le_refl _),
      List.getElem?_set_self hp]
    simp

theorem Payload.storeDigits {bound : Nat} {k : Kind} (h : Payload s bound k) (ds : List Byte) :
    Payload (storeDigits ds s) bound k := by
  obtain ⟨pay, hf⟩ := storeDigits_frame ds s
  rw [hf]
  cases h with
  | data hs => exact .data hs
  | frequency hs => exact .frequency hs
  | amplitude hs => exact .amplitude hs
  | phase hs => exact .phase hs

theorem Payload.kind_ne_idle {bound : Nat} {k : Kind} (h : Payload s bound k) : k ≠ .idle := by
  cases h <;> nofun

/-- Hex digits that do not complete the command are stored. -/
theorem Payload.parseBytes_more {bound : Nat} {k : Kind} (h : Payload s bound k) (ho : s.op = .idle)
    {ds : List Byte} (hx : ∀ d ∈ ds, isHex d = true) (hlen : s.pos + ds.length < bound) :
    parseBytes ds s = Machine.storeDigits ds s := by
  induction ds generalizing s with
  | nil => rfl
  | cons d ds ih =>
    rw [List.length_cons] at hlen
    obtain ⟨hd, hds⟩ := List.forall_mem_cons.mp hx
    rw [parseBytes_cons, h.parserStep_eq ho (ne_slash_of_isHex hd),
      parseDigit_more k hd (by omega)]
    exact ih (h.storeDigits [d]) ho hds (by rw [storeDigit_pos]; omega)

/-- The hex digit that completes the command resolves it. -/
theorem Payload.parseBytes_last {bound : Nat} {k : Kind} (h : Payload s bound k) (ho : s.op = .idle)
    {ds : List Byte} (hx : ∀ d ∈ ds, isHex d = true) (hlen : s.pos + ds.length = bound)
    (hne : ds ≠ []) : parseBytes ds s = resolve k (Machine.storeDigits ds s) := by
  obtain ⟨ds, d, rfl⟩ := (List.eq_nil_or_concat' ds).resolve_left hne
  rw [List.length_append, List.length_singleton] at hlen
  obtain ⟨hds, hd⟩ := List.forall_mem_append.mp hx
  have hd : isHex d = true := hd d (List.mem_singleton_self d)
  rw [parseBytes_append, h.parseBytes_more ho hds (by omega), parseBytes_cons, parseBytes_nil,
    (h.storeDigits ds).parserStep_eq (by rw [storeDigits_op, ho]) (ne_slash_of_isHex hd),
    parseDigit_last k hd (by rw [storeDigits_pos]; omega), storeDigits_concat]

end

/-! ## The bytes the mailbox spells (R89) -/

@[simp] theorem pairBytes_hexDigits (data : List Byte) :
    pairBytes (hexDigits data) = some data := by
  induction data with
  | nil => rfl
  | cons v vs ih =>
    have hv : hexByte (hexDigit (v.toNat / 16)) (hexDigit (v.toNat % 16)) = some v :=
      hexByte_eq_some_iff.mpr rfl
    simp only [hexDigits_cons, hex2, List.cons_append, List.nil_append, pairBytes, hv, ih]

/-- Pairs of hex digits spell bytes. -/
theorem pairBytes_of_isHex {n : Nat} {ds : List Byte} (hlen : ds.length = 2 * n)
    (hx : ∀ d ∈ ds, isHex d = true) : ∃ data, pairBytes ds = some data ∧ data.length = n := by
  induction n generalizing ds with
  | zero =>
    rw [List.length_eq_zero_iff.mp hlen]
    exact ⟨[], rfl, rfl⟩
  | succ n ih =>
    match ds, hlen, hx with
    | c0 :: c1 :: ds, hlen, hx =>
      simp only [List.forall_mem_cons] at hx
      obtain ⟨h0, h1, hx⟩ := hx
      obtain ⟨v, hv⟩ := hexByte_of_isHex h0 h1
      obtain ⟨vs, hvs, hn⟩ := ih (by simp only [List.length_cons] at hlen; omega) hx
      exact ⟨v :: vs, by simp only [pairBytes, hv, hvs], by rw [List.length_cons, hn]⟩

theorem mailboxBytes_of_hexPay {s : State} {n : Nat} (hn : 2 * n ≤ 18) (h : HexPay s (2 * n)) :
    ∃ data, mailboxBytes n s = some data ∧ data.length = n := by
  refine pairBytes_of_isHex (by simp only [List.length_take, Vector.length_toList]; omega) ?_
  intro d hd
  obtain ⟨j, hj, rfl⟩ := List.getElem_of_mem hd
  simp only [List.length_take, Vector.length_toList] at hj
  simpa using h j (by omega) (by omega)

/-! ## The parser and the decoder, part by part -/

/-- What the decoder reads in the bytes so far is what is pending: the command it answers, or
nothing where they are only the beginning of one. -/
structure Agrees (r : Except Reject (Instr × List Byte)) (t : State) : Prop where
  pending : ∀ i rest, r = .ok (i, rest) → i ≠ .abort → mailboxInstr t = some i ∧ t.pstate = .idle
  nothing : r = .error .truncated → t.op = .idle

theorem Agrees.of_resolved {t : State} {i : Instr} (rest : List Byte) (h : mailboxInstr t = some i)
    (hp : t.pstate = .idle) : Agrees (.ok (i, rest)) t where
  pending := by
    rintro _ _ ⟨⟩ _
    exact ⟨h, hp⟩
  nothing := nofun

theorem Agrees.of_abort (rest : List Byte) (t : State) : Agrees (.ok (.abort, rest)) t where
  pending := by
    rintro _ _ ⟨⟩ hne
    exact absurd rfl hne
  nothing := nofun

theorem Agrees.of_truncated {t : State} (h : t.op = .idle) : Agrees (.error .truncated) t where
  pending := nofun
  nothing := fun _ => h

theorem Agrees.of_rejected {e : Reject} (t : State) (h : e ≠ .truncated) : Agrees (.error e) t where
  pending := nofun
  nothing := by
    rintro ⟨⟩
    exact absurd rfl h

section
variable {s : State}

/-- A complete payload resolves the command, whose bytes the mailbox then spells; whatever follows
finds the gate closed. -/
theorem Payload.parseBytes_eq {n : Nat} {k : Kind} (h : Payload s (2 * n) k) (ho : s.op = .idle)
    (hp : s.pos = 0) (hn : 0 < n) (hn9 : n ≤ 9) {bs data rest : List Byte}
    (hd : takeHexBytes n bs = .ok (data, rest)) :
    ∃ t, parseBytes bs s = resolve k t ∧ t.slot = s.slot ∧ t.addrc = s.addrc ∧ t.nlen = s.nlen ∧
      mailboxBytes n t = some data := by
  obtain ⟨rfl, rfl⟩ := takeHexBytes_eq_ok_iff.mp hd
  have hlen : (hexDigits data).length = 2 * data.length := Laws.hexDigits_length data
  have hne : hexDigits data ≠ [] := by
    rw [← List.length_pos_iff, hlen]
    omega
  have hpay := storeDigits_pay (hexDigits data) s (by omega)
  simp only [hp, Nat.zero_add, hlen, List.take_zero, List.nil_append] at hpay
  refine ⟨Machine.storeDigits (hexDigits data) s, ?_, by simp, by simp, by simp, ?_⟩
  · rw [parseBytes_append, h.parseBytes_last ho (fun _ => isHex_of_mem_hexDigits) (by omega) hne,
      parseBytes_resolve h.kind_ne_idle]
  · rw [mailboxBytes, hpay, pairBytes_hexDigits]

/-- A payload that ends too early resolves nothing. -/
theorem Payload.parseBytes_truncated {n : Nat} {k : Kind} (h : Payload s (2 * n) k)
    (ho : s.op = .idle) (hp : s.pos = 0) {bs : List Byte}
    (hd : takeHexBytes n bs = .error .truncated) : (parseBytes bs s).op = .idle := by
  obtain ⟨hx, hlen⟩ := takeHexBytes_eq_truncated hd
  rw [h.parseBytes_more ho hx (by omega), storeDigits_op, ho]

/-- Where the decoder answers `r` for a payload, and the mailbox with the bytes of a complete one
holds the command of `r`, parser and decoder agree. -/
theorem Payload.agrees {n : Nat} {k : Kind} (h : Payload s (2 * n) k) (ho : s.op = .idle)
    (hp : s.pos = 0) (hn : 0 < n) (hn9 : n ≤ 9) {bs : List Byte}
    {r : Except Reject (Instr × List Byte)}
    (herror : ∀ e, takeHexBytes n bs = .error e → r = .error e)
    (hok : ∀ data rest, takeHexBytes n bs = .ok (data, rest) → ∃ i, r = .ok (i, rest) ∧
      ∀ t : State, t.op = k → t.slot = s.slot → t.addrc = s.addrc → t.nlen = s.nlen →
        mailboxBytes n t = some data → mailboxInstr t = some i) :
    Agrees r (parseBytes bs s) := by
  cases hd : takeHexBytes n bs with
  | error e =>
    rw [herror e hd]
    by_cases he : e = .truncated
    · subst he
      exact .of_truncated (h.parseBytes_truncated ho hp hd)
    · exact .of_rejected _ he
  | ok dr =>
    obtain ⟨data, rest⟩ := dr
    obtain ⟨i, hr, hi⟩ := hok data rest hd
    obtain ⟨t, ht, hslot, haddr, hlen, hbytes⟩ := h.parseBytes_eq ho hp hn hn9 hd
    rw [hr, ht]
    exact .of_resolved rest (hi _ rfl hslot haddr hlen hbytes) rfl

/-- After `I<N>R<AA>L`: the count, `D` and the payload (R126 to R130). -/
theorem agrees_length (ho : s.op = .idle) (hs : s.pstate = .readingDataLength) (hp : s.pos = 0)
    {addr : Byte} (ha : mailboxAddr s = some addr) (bs : List Byte) :
    Agrees
      (match bs with
        | [] => .error .truncated
        | l :: bs =>
          match countOfDigit l with
          | none => .error .countDigit
          | some n =>
            match bs with
            | [] => .error .truncated
            | d :: bs =>
              if d = 0x44 then
                match takeHexBytes n.val bs with
                | .error e => .error e
                | .ok (data, rest) => .ok (.wrreg s.slot addr data, rest)
              else .error .dataMarker)
      (parseBytes bs s) := by
  cases bs with
  | nil => exact .of_truncated ho
  | cons l bs =>
    dsimp only
    cases hl : countOfDigit l with
    | none => exact .of_rejected _ nofun
    | some n =>
      obtain ⟨h1, h9⟩ := countOfDigit_bounds hl
      obtain rfl := countOfDigit_eq_some hl
      rw [parseBytes_cons, parserStep_length ho hs (digitOfCount_ne_slash h1),
        parseLength_digit hp h1 h9]
      cases bs with
      | nil => exact .of_truncated ho
      | cons d bs =>
        dsimp only
        by_cases hD : d = 0x44
        swap
        · rw [if_neg hD]
          exact .of_rejected _ nofun
        subst hD
        have hmarker : parserStep 0x44 { s with nlen := n, pos := 1 } =
            enter .readingData 0 { s with nlen := n, pos := 1 } :=
          (parserStep_length (s := { s with nlen := n, pos := 1 }) ho hs (by decide)).trans
            (parseLength_marker rfl)
        have payload : Payload (enter .readingData 0 { s with nlen := n, pos := 1 }) (2 * n.val)
          .writeRegister := .data rfl
        rw [if_pos rfl, parseBytes_cons, hmarker]
        refine payload.agrees ho rfl h1 h9 (fun e hd => by rw [hd]) fun data rest hd =>
          ⟨.wrreg s.slot addr data, by rw [hd], fun t hop hslot haddr hlen hbytes => ?_⟩
        have hm : mailboxAddr t = some addr := by
          rw [← ha, mailboxAddr, mailboxAddr]
          simp only [haddr, enter_addrc]
        have hb : mailboxBytes t.nlen.val t = some data := by
          rw [hlen]
          exact hbytes
        simp only [mailboxInstr, hop, hm, hb, hslot, enter_slot]

/-- After `I<N>R<AA>`: `L`, or the terminator of a read (R122, R123). -/
theorem agrees_decodeRegister (ho : s.op = .idle) (hs : s.pstate = .readingRegisterAddress)
    (hp : s.pos = 2) {addr : Byte} (ha : mailboxAddr s = some addr) (bs : List Byte) :
    Agrees (decodeRegister s.slot addr bs) (parseBytes bs s) := by
  cases bs with
  | nil => exact .of_truncated ho
  | cons b bs =>
    by_cases hslash : b = 0x2f
    · simp only [decodeRegister, if_pos hslash]
      exact .of_rejected _ nofun
    simp only [decodeRegister, if_neg hslash]
    rw [parseBytes_cons, parserStep_address ho hs hslash]
    by_cases hL : b = 0x4c
    · subst hL
      rw [if_pos rfl, parseAddress_write hp]
      exact agrees_length (s := enter .readingDataLength 0 s) ho rfl rfl ha bs
    · rw [if_neg hL, parseAddress_terminator hp hL, parseBytes_resolve (by decide)]
      have haddr : mailboxAddr (resolve .readRegister s) = some addr := ha
      exact .of_resolved _ (by simp [mailboxInstr, haddr]) rfl

/-- After `I<N>R`: the two digits of the address (R121, R124). -/
theorem agrees_address (ho : s.op = .idle) (hs : s.pstate = .readingRegisterAddress)
    (hp : s.pos = 0) (bs : List Byte) :
    Agrees
      (match takeHexBytes 1 bs with
        | .error e => .error e
        | .ok ([addr], rest) => decodeRegister s.slot addr rest
        | .ok _ => .error .truncated)
      (parseBytes bs s) := by
  match bs with
  | [] => exact .of_truncated ho
  | [c0] =>
    have hop : (parseBytes [c0] s).op = .idle := parserStep_address_op ho hs (by omega) c0
    rw [takeHexBytes]
    split_ifs
    · exact .of_truncated hop
    · exact .of_rejected _ nofun
  | c0 :: c1 :: bs =>
    cases hv : hexByte c0 c1 with
    | none =>
      simp only [takeHexBytes, hv]
      exact .of_rejected _ nofun
    | some addr =>
      obtain ⟨h0, h1⟩ := isHex_of_hexByte hv
      have hfirst : parserStep c0 s = { s with addrc := s.addrc.set 0 c0, pos := 1 } := by
        rw [parserStep_address ho hs (ne_slash_of_isHex h0), parseAddress_digit (by omega) h0]
        simp only [hp]
      have hsecond : parserStep c1 { s with addrc := s.addrc.set 0 c0, pos := 1 } =
          { s with addrc := (s.addrc.set 0 c0).set 1 c1, pos := 2 } := by
        exact (parserStep_address (s := { s with addrc := s.addrc.set 0 c0, pos := 1 }) ho hs
          (ne_slash_of_isHex h1)).trans (parseAddress_digit (Nat.lt_succ_self 1) h1)
      have haddr :
          mailboxAddr { s with addrc := (s.addrc.set 0 c0).set 1 c1, pos := 2 } = some addr := by
        simpa [mailboxAddr] using hv
      simp only [takeHexBytes, hv, parseBytes_cons, hfirst, hsecond]
      exact agrees_decodeRegister (s := { s with addrc := _, pos := 2 }) ho hs rfl haddr bs

/-- After `I<N>` (R119, R120, R132 to R137). -/
theorem agrees_decodeIndexed (ho : s.op = .idle) (hs : s.pstate = .readingIndex) (hp : s.pos = 1)
    (bs : List Byte) : Agrees (decodeIndexed s.slot bs) (parseBytes bs s) := by
  cases bs with
  | nil => exact .of_truncated ho
  | cons b bs =>
    have row {b : Byte} (hb : b ≠ 0x2f) : parserStep b s = parseIndex b s :=
      parserStep_index ho hs hb
    rw [parseBytes_cons]
    simp only [decodeIndexed]
    split_ifs with hT hR hF hA hP
    · rw [hT, row (by decide), parseIndex_test hp, parseBytes_resolve (by decide)]
      exact .of_resolved _ rfl rfl
    · rw [hR, row (by decide), parseIndex_selector hp (p := .readingRegisterAddress) (by decide)]
      exact agrees_address (s := enter .readingRegisterAddress 0 s) ho rfl rfl bs
    · rw [hF, row (by decide), parseIndex_selector hp (p := .readingFrequency) (by decide)]
      have payload : Payload (enter .readingFrequency 0 s) (2 * 4) .setFrequency := .frequency rfl
      refine payload.agrees ho rfl (by omega) (by omega) (fun e hd => by rw [hd])
        fun data rest hd => ?_
      match data, (takeHexBytes_eq_ok_iff.mp hd).1 with
      | [f0, f1, f2, f3], _ =>
        exact ⟨.setf s.slot f0 f1 f2 f3, by rw [hd], fun t hop hslot _ _ hbytes => by
          simp only [mailboxInstr, hop, hbytes, hslot, enter_slot]⟩
    · rw [hA, row (by decide), parseIndex_selector hp (p := .readingAmplitude) (by decide)]
      have payload : Payload (enter .readingAmplitude 0 s) (2 * 2) .setAmplitude := .amplitude rfl
      refine payload.agrees ho rfl (by omega) (by omega) (fun e hd => by rw [hd])
        fun data rest hd => ?_
      match data, (takeHexBytes_eq_ok_iff.mp hd).1 with
      | [w0, w1], _ =>
        exact ⟨.seta s.slot w0 w1, by rw [hd], fun t hop hslot _ _ hbytes => by
          simp only [mailboxInstr, hop, hbytes, hslot, enter_slot]⟩
    · rw [hP, row (by decide), parseIndex_selector hp (p := .readingPhase) (by decide)]
      have payload : Payload (enter .readingPhase 0 s) (2 * 2) .setPhase := .phase rfl
      refine payload.agrees ho rfl (by omega) (by omega) (fun e hd => by rw [hd])
        fun data rest hd => ?_
      match data, (takeHexBytes_eq_ok_iff.mp hd).1 with
      | [w0, w1], _ =>
        exact ⟨.setp s.slot w0 w1, by rw [hd], fun t hop hslot _ _ hbytes => by
          simp only [mailboxInstr, hop, hbytes, hslot, enter_slot]⟩
    · exact .of_rejected _ nofun

/-- What is left of the token `*IDN?` at position `s.pos`, character by character (R117). -/
theorem agrees_takeToken {es : List Byte} (ho : s.op = .idle) (hs : s.pstate = .readingIdn)
    (hes : ∀ j (h : j < es.length), idnChar (s.pos + j) = some es[j])
    (hend : s.pos + es.length = 5) (hp : s.pos ≤ 4) (bs : List Byte) :
    Agrees
      (match takeToken es bs with
        | .error e => .error e
        | .ok rest => .ok (.idn, rest))
      (parseBytes bs s) := by
  induction es generalizing s bs with
  | nil => simp at hend; omega
  | cons e es ih =>
    have he : idnChar s.pos = some e := hes 0 (by simp)
    cases bs with
    | nil => exact .of_truncated ho
    | cons b bs =>
      by_cases hb : b = e
      swap
      · simp only [takeToken, if_neg hb]
        exact .of_rejected _ nofun
      subst hb
      simp only [takeToken, if_true]
      rw [parseBytes_cons, parserStep_idn ho hs (idnChar_ne_slash he)]
      by_cases h4 : s.pos = 4
      · obtain rfl : es = [] := by
          rw [← List.length_eq_zero_iff]
          simp only [List.length_cons] at hend
          omega
        rw [parseIdn_last he h4, parseBytes_resolve (by decide)]
        exact .of_resolved _ rfl rfl
      · rw [parseIdn_more he h4]
        refine ih (s := advance s) ho hs (fun j h => ?_) ?_ ?_ bs
        · have := hes (j + 1) (by simpa using h)
          simpa [Nat.add_assoc, Nat.add_comm 1] using this
        · simp only [advance_pos, List.length_cons] at hend ⊢
          omega
        · simp only [advance_pos]
          omega

/-- From `Idle` the parser makes of any bytes what the decoder makes of them (R139 (3)). -/
theorem agrees_decodeCommand (ho : s.op = .idle) (hs : s.pstate = .idle) (bs : List Byte) :
    Agrees (decodeCommand bs) (parseBytes bs s) := by
  cases bs with
  | nil => exact .of_truncated ho
  | cons b bs =>
    have row {b : Byte} (hb : b ≠ 0x2f) : parserStep b s = parseIdle b s := parserStep_idle ho hs hb
    rw [parseBytes_cons]
    simp only [decodeCommand]
    split_ifs with hX hQ hslash hStar hI
    · rw [hX, row (by decide), parseIdle_reset, parseBytes_resolve (by decide)]
      exact .of_resolved _ rfl rfl
    · rw [hQ, row (by decide), parseIdle_presence, parseBytes_resolve (by decide)]
      exact .of_resolved _ rfl rfl
    · exact .of_abort _ _
    · rw [hStar, row (by decide), parseIdle_star]
      have token : ∀ j (h : j < 4),
          idnChar (1 + j) = some [(0x49 : Byte), 0x44, 0x4e, 0x3f][j] := by decide
      exact agrees_takeToken (s := enter .readingIdn 1 s) (es := [0x49, 0x44, 0x4e, 0x3f]) ho rfl
        token rfl (by simp) bs
    · rw [hI, row (by decide), parseIdle_index]
      cases bs with
      | nil => exact .of_truncated ho
      | cons n bs =>
        dsimp only
        cases hn : slotOfDigit n with
        | none => exact .of_rejected _ nofun
        | some slot =>
          obtain rfl := slotOfDigit_eq_some hn
          have hslot : parserStep (digitOfSlot slot) (enter .readingIndex 0 s) =
              { enter .readingIndex 0 s with slot := slot, pos := 1 } :=
            (parserStep_index (s := enter .readingIndex 0 s) ho rfl
              (digitOfSlot_ne_slash slot)).trans (parseIndex_digit rfl slot)
          rw [parseBytes_cons, hslot]
          exact agrees_decodeIndexed (s := { enter .readingIndex 0 s with slot := slot, pos := 1 })
            ho rfl rfl bs
    · exact .of_rejected _ nofun

end

/-! ## A pending command is complete (R61, R138) -/

theorem mailboxAddr_of_inv {s : State} (h : ParserInv s) : ∃ addr, mailboxAddr s = some addr :=
  hexByte_of_isHex h.addrHex.1 h.addrHex.2

/-- Under the parser's invariant the mailbox holds what `OP` says. -/
theorem mailboxInstr_of_inv {s : State} (h : ParserInv s) (ho : s.op ≠ .idle) :
    ∃ i, mailboxInstr s = some i ∧ i.wellFormed = true ∧ i.isFrame = false ∧ i ≠ .abort := by
  have hpending := h.pending
  unfold PendingOk at hpending
  cases hk : s.op <;> simp only [hk] at hpending
  case idle => exact absurd hk ho
  case test => exact ⟨.test s.slot, by simp only [mailboxInstr, hk], rfl, rfl, nofun⟩
  case identify => exact ⟨.idn, by simp only [mailboxInstr, hk], rfl, rfl, nofun⟩
  case reset => exact ⟨.resetAll, by simp only [mailboxInstr, hk], rfl, rfl, nofun⟩
  case checkPresence => exact ⟨.presence, by simp only [mailboxInstr, hk], rfl, rfl, nofun⟩
  case writeRegister =>
    obtain ⟨hn, hx⟩ := hpending
    obtain ⟨addr, ha⟩ := mailboxAddr_of_inv h
    obtain ⟨data, hd, hlen⟩ := mailboxBytes_of_hexPay (by have := h.count; omega) hx
    refine ⟨.wrreg s.slot addr data, by simp only [mailboxInstr, hk, ha, hd], ?_, rfl, nofun⟩
    exact countOk_iff.mpr (hlen ▸ ⟨hn, h.count⟩)
  case readRegister =>
    obtain ⟨addr, ha⟩ := mailboxAddr_of_inv h
    exact ⟨.rdreg s.slot addr, by simp only [mailboxInstr, hk, ha], rfl, rfl, nofun⟩
  case setFrequency =>
    obtain ⟨data, hd, hlen⟩ := mailboxBytes_of_hexPay (n := 4) (by omega) hpending
    match data, hlen with
    | [f0, f1, f2, f3], _ =>
      exact ⟨.setf s.slot f0 f1 f2 f3, by simp only [mailboxInstr, hk, hd], rfl, rfl, nofun⟩
  case setAmplitude =>
    obtain ⟨data, hd, hlen⟩ := mailboxBytes_of_hexPay (n := 2) (by omega) hpending
    match data, hlen with
    | [w0, w1], _ =>
      exact ⟨.seta s.slot w0 w1, by simp only [mailboxInstr, hk, hd], rfl, rfl, nofun⟩
  case setPhase =>
    obtain ⟨data, hd, hlen⟩ := mailboxBytes_of_hexPay (n := 2) (by omega) hpending
    match data, hlen with
    | [w0, w1], _ =>
      exact ⟨.setp s.slot w0 w1, by simp only [mailboxInstr, hk, hd], rfl, rfl, nofun⟩

/-! ## The statements -/

/-- Settles O23. -/
theorem parserAgreesWithTheDecoder : Obligations.ParserAgreesWithTheDecoder := by
  intro s bs ho hs
  obtain ⟨hpending, hnothing⟩ := agrees_decodeCommand ho hs bs
  exact ⟨hpending, hnothing⟩

/-- Settles O24: every digit a pending kind needs is a hex digit, so its operands are defined. -/
theorem pendingCommandIsComplete : Obligations.PendingCommandIsComplete :=
  fun _ => mailboxInstr_of_inv

/-- Settles O16: the rows of `Idle` for `*` and for bytes that start nothing, and the rows of
`ReadingIdn`. -/
theorem idnTokenIsMatchedCharacterByCharacter :
    Obligations.IdnTokenIsMatchedCharacterByCharacter := by
  intro s ho
  constructor
  · intro hs
    refine ⟨(parserStep_idle ho hs (by decide)).trans (parseIdle_star s), ?_⟩
    intro b hI hX hQ hStar hslash
    exact (parserStep_idle ho hs hslash).trans (parseIdle_other s hI hX hQ hStar)
  · intro hs
    have more {b : Byte} {p : Nat} (hp : s.pos = p) (hb : idnChar p = some b) (h4 : p ≠ 4) :
        parserStep b s = { s with pos := p + 1 } := by
      subst hp
      exact (parserStep_idn ho hs (idnChar_ne_slash hb)).trans (parseIdn_more hb h4)
    refine ⟨fun hp => more hp rfl (by decide), fun hp => more hp rfl (by decide),
      fun hp => more hp rfl (by decide), fun hp => ?_, fun b e hslash hne hpe => ?_⟩
    · exact (parserStep_idn ho hs (by decide)).trans (parseIdn_last (by rw [hp]; rfl) hp)
    · have he : idnChar s.pos = some e := by
        simp only [List.mem_cons, Prod.mk.injEq, List.not_mem_nil, or_false] at hpe
        rcases hpe with ⟨hp, rfl⟩ | ⟨hp, rfl⟩ | ⟨hp, rfl⟩ | ⟨hp, rfl⟩ <;> rw [hp] <;> rfl
      refine (parserStep_idn ho hs hslash).trans (parseIdn_mismatch fun hb => hne ?_)
      exact Option.some.inj (hb.symm.trans he)

/-- Settles O19: the two rows of `ReadingRegisterAddress` for a byte that is no digit. -/
theorem anyTerminatorResolvesARead : Obligations.AnyTerminatorResolvesARead := by
  intro s b ho hs hslash
  have row := parserStep_address ho hs hslash
  exact ⟨fun hp hL => row.trans (parseAddress_terminator hp hL),
    fun hp hx => row.trans (parseAddress_not_digit hp hx)⟩

/-- Settles O22: the three word states share the row `parseDigit`. -/
theorem nonHexByteDropsAWordCommand : Obligations.NonHexByteDropsAWordCommand := by
  intro s b ho hstate hx hb
  have drop {bound : Nat} {k : Kind} (h : Payload s bound k) : parserStep b s = dropPartial s :=
    (h.parserStep_eq ho hb).trans (parseDigit_not_hex bound k hx)
  rcases hstate with hs | hs | hs
  · exact drop (.frequency hs)
  · exact drop (.amplitude hs)
  · exact drop (.phase hs)

end Sys2Proof.Machine

/-! The step (00_scope.md R10): what each shape of the coming event makes of it, and the delivery of
a whole command, byte by byte, up to the poll that runs it (20_memory.md section 5). -/
namespace Sys2Proof.Machine

/-! ## One event -/

/-- R10, R110: an arrived byte, `/` included, is one transition of the parser. -/
theorem step_rxByte {s : State} {b : Byte} {rest : List Event} (h : s.input = .rxByte b :: rest) :
    step s = .next (parserStep b { s with input := rest }) := by
  rw [step_eq (fetch_rxByte h)]
  split
  · rename_i hb
    subst hb
    exact exec_abort _
  · rfl

theorem step_reset {s : State} {rest : List Event} (h : s.input = .reset :: rest) :
    step s = .next (resetStep { s with input := rest }) := step_eq (fetch_reset h)

/-- R160, R161: a poll runs the command the mailbox holds. -/
theorem step_pending {s : State} {i : Instr} (hm : MainTurn s) (hc : pendingCalls s = [])
    (hi : mailboxInstr s = some i) : step s = exec i { s with input := mainInput s } := by
  rw [step_poll hm hc, pollAction_run hi, act]

theorem step_idle {s : State} (hm : MainTurn s) (hc : pendingCalls s = []) (ho : s.op = .idle) :
    step s = .next { s with input := mainInput s } := by
  rw [step_poll hm hc, pollAction_idle ho, act]

/-- With no event left a poll leaves no event. -/
theorem mainInput_of_nil {s : State} (h : s.input = []) : { s with input := mainInput s } = s := by
  rw [mainInput, h, List.tail_nil, ← h]

theorem mainInput_of_tick {s : State} {rest : List Event} (h : s.input = .tick :: rest) :
    mainInput s = rest := by rw [mainInput, h, List.tail_cons]

/-- R38: a transition of the parser leaves the scripted gaps and everything outside the parser. -/
theorem parserStep_gaps (b : Byte) (s : State) : (parserStep b s).gaps = s.gaps := by
  obtain ⟨p, n, o, sl, a, nl, pay, h⟩ := parserStep_frame b s
  rw [h]

theorem deviceSide_parserStep (b : Byte) (s : State) :
    deviceSide (parserStep b s) = deviceSide s := by
  obtain ⟨p, n, o, sl, a, nl, pay, h⟩ := parserStep_frame b s
  rw [h]
  rfl

theorem parseBytes_gaps_eq (bs : List Byte) (s : State) : (parseBytes bs s).gaps = s.gaps := by
  rw [parseBytes_eq_withParser]
  rfl

theorem deviceSide_parseBytes (bs : List Byte) (s : State) :
    deviceSide (parseBytes bs s) = deviceSide s := by
  rw [parseBytes_eq_withParser]
  rfl

/-! ## Bytes delivered one step each -/

/-- A run goes on from the state its first step answers. -/
theorem run_of_step {s t : State} (h : step s = .next t) (n : Nat) :
    Sys2Proof.core.run (n + 1) s = Sys2Proof.core.run n t := by
  have hs : Sys2Proof.core.step s = .next t := h
  simp only [Host.Core.run, hs]

/-- As many steps as bytes deliver them to the parser in order (20_memory.md R63 (1)). -/
theorem run_rxBytes {s : State} {bs : List Byte} {rest : List Event}
    (h : s.input = bs.map Event.rxByte ++ rest) :
    Sys2Proof.core.run bs.length s = .next (parseBytes bs { s with input := rest }) := by
  induction bs generalizing s with
  | nil =>
    rw [List.map_nil, List.nil_append] at h
    rw [parseBytes_nil, ← h]
    rfl
  | cons b bs ih =>
    rw [List.length_cons, run_of_step (step_rxByte h), parserStep_input, ih rfl, parseBytes_cons,
      parserStep_input b s rest]

/-- The mailbox is read off the parser's own fields. -/
theorem mailboxInstr_input (s : State) (es : List Event) :
    mailboxInstr { s with input := es } = mailboxInstr s := rfl

/-! ## The statements -/

/-- Settles O25: the encoding decodes to the command (O8), so its bytes leave the command pending
(O23), and the `Tick` polls it. -/
theorem deliveredCommandIsExecuted : Obligations.DeliveredCommandIsExecuted := by
  intro s i rest hw hc hne ho hs hcalls hin
  obtain ⟨hi, -⟩ := (agrees_decodeCommand ho hs (encode i)).pending i []
    (by simpa using decodeCommand_encode i [] hw hc) hne
  have hparsed := parseBytes_input (encode i) s (.tick :: rest)
  have hinput : (parseBytes (encode i) { s with input := .tick :: rest }).input =
      .tick :: rest := by rw [hparsed]
  have hpending : pendingCalls (parseBytes (encode i) { s with input := .tick :: rest }) = [] := by
    rw [parseBytes_eq_withParser]
    exact hcalls
  refine ⟨_, run_rxBytes hin, hinput, parseBytes_gaps_eq _ _, deviceSide_parseBytes _ _, ?_⟩
  rw [step_pending (.inr ⟨rest, hinput⟩) hpending (by rw [hparsed, mailboxInstr_input, hi]),
    mainInput_of_tick hinput]

/-- Settles O4. -/
theorem tickRunsThePendingCommand : Obligations.TickRunsThePendingCommand := by
  intro s i hc hi
  refine ⟨fun h => ?_, fun rest h => ?_⟩
  · rw [step_pending (.inl h) hc hi, mainInput_of_nil h]
  · rw [step_pending (.inr ⟨rest, h⟩) hc hi, mainInput_of_tick h]

/-- Settles O5. -/
theorem stepRunsBytesAndAwaitingFrames : Obligations.StepRunsBytesAndAwaitingFrames := by
  refine ⟨fun s rest b h _ => step_rxByte h, fun s rest h => step_rxByte h, ?_, ?_⟩
  · intro s slot bytes announce i cs hm hc hi
    rw [step_call hm hc, callAction, hi, act]
  · intro s cs hm hc
    rw [step_call hm hc, callAction, act]

/-- Settles O6. -/
theorem idlePollChangesNothing : Obligations.IdlePollChangesNothing := by
  intro s hc ho
  refine ⟨fun h => ?_, fun rest h => ?_⟩
  · rw [step_idle (.inl h) hc ho, mainInput_of_nil h]
  · rw [step_idle (.inr ⟨rest, h⟩) hc ho, mainInput_of_tick h]

/-- Settles O12: the gate is closed to every byte. -/
theorem closedGateDropsEveryByte : Obligations.ClosedGateDropsEveryByte := by
  intro s rest b ho h
  rw [step_rxByte h, parserStep_closed (s := { s with input := rest }) ho]

/-- Settles O13. -/
theorem parserWritesOnlyItsOwnFields : Obligations.ParserWritesOnlyItsOwnFields :=
  fun _ _ b h => ⟨_, step_rxByte h, parserStep_gaps b _, deviceSide_parserStep b _⟩

/-- The reset state, field by field (R36). -/
theorem resetValues_powerOn (c : Config) : ResetValues (State.powerOn c) where
  pstate := rfl
  pos := rfl
  op := rfl
  slot := rfl
  addrc := rfl
  nlen := rfl
  pay := rfl
  testBit := rfl
  rst := rfl
  ioup := rfl
  cs := rfl
  out := rfl
  dev := rfl

/-- The `Reset` step gives what power-on gives; the environment's data have no reset value
(R270). -/
theorem resetValues_resetStep (s : State) : ResetValues (resetStep s) where
  __ := resetValues_powerOn s.cfg

/-- Settles O1. -/
theorem resetGivesTheTableOfResetValues : Obligations.ResetGivesTheTableOfResetValues :=
  ⟨resetValues_powerOn, fun _ _ h => ⟨_, step_reset h, resetValues_resetStep _, rfl, rfl⟩⟩

end Sys2Proof.Machine

/-! What a command does, whatever bytes arrive while it runs. `Passes` of Laws/Ops.lean says it for
work that cannot stop; `Runs c f u` says it once for work that may be refused: with configuration
`c` the work `f` goes on, and its effect is `u`, interrupted. The operations that answer an outcome
get their `Runs` lemma, a command's rule is put together from them, and the statements about commands
and frames are read off the effects. -/
namespace Sys2Proof.Machine

/-! ## Work that goes on, and its effect -/

/-- What work does to states with configuration `c`: it neither reads nor writes what an interrupt
can change, extends the traces and keeps the configuration. -/
structure Effect (c : Config) (u : State → State) : Prop where
  free : ∀ p t, t.cfg = c → u (fromParser p t) = fromParser p (u t)
  traces : ∀ s, s.cfg = c → TracesExtend s (u s)
  cfg : ∀ s, s.cfg = c → (u s).cfg = c

/-- With configuration `c` the work `f` goes on with the effect `u`; the bytes that arrive meanwhile
are parsed in order (R10, R242 (3)). -/
structure Runs (c : Config) (f : State → Host.Outcome State Fault Refusal) (u : State → State) :
    Prop extends Effect c u where
  eq : ∀ s, s.cfg = c → f s = .next (interrupted s (u s))

section
variable {c : Config} {f g : State → Host.Outcome State Fault Refusal} {u v : State → State}

/-- Work that cannot stop. -/
theorem Passes.runs {w : State → State} (h : Passes w u) (traces : ∀ s, TracesExtend s (u s))
    (cfg : ∀ s, (u s).cfg = s.cfg) : Runs c (fun s => .next (w s)) u where
  eq := fun s _ => by rw [h.eq]
  free := fun p t _ => h.free p t
  traces := fun s _ => traces s
  cfg := fun s hs => (cfg s).trans hs

/-- The work is looked at with configuration `c` only. -/
theorem Runs.congr (h : Runs c f u) (hf : ∀ s, s.cfg = c → g s = f s)
    (hu : ∀ s, s.cfg = c → u s = v s) : Runs c g v where
  eq := fun s hs => by rw [hf s hs, h.eq s hs, hu s hs]
  free := fun p t ht => by
    rw [← hu t ht, ← h.free p t ht]
    exact (hu (fromParser p t) ht).symm
  traces := fun s hs => hu s hs ▸ h.traces s hs
  cfg := fun s hs => hu s hs ▸ h.cfg s hs

theorem Runs.congr_work (h : Runs c f u) (hf : ∀ s, s.cfg = c → g s = f s) : Runs c g u :=
  h.congr hf fun _ _ => rfl

theorem Runs.congr_effect (h : Runs c f u) (hu : ∀ s, s.cfg = c → u s = v s) : Runs c f v :=
  h.congr (fun _ _ => rfl) hu

theorem Effect.id : Effect c (fun s => s) :=
  ⟨fun _ _ _ => rfl, fun s _ => .refl s, fun _ hs => hs⟩

theorem Effect.comp (hu : Effect c u) (hv : Effect c v) : Effect c (fun s => v (u s)) where
  free := fun p t ht => by rw [hu.free p t ht, hv.free p (u t) (hu.cfg t ht)]
  traces := fun s hs => (hu.traces s hs).trans (hv.traces _ (hu.cfg s hs))
  cfg := fun s hs => hv.cfg _ (hu.cfg s hs)

theorem Effect.self (h : Effect c u) {s : State} (hs : s.cfg = c) : u s = fromParser s (u s) :=
  h.free s s hs

theorem Effect.op_eq (h : Effect c u) {s : State} (hs : s.cfg = c) : (u s).op = s.op := by
  rw [h.self hs]
  rfl

theorem Effect.gaps_eq (h : Effect c u) {s : State} (hs : s.cfg = c) : (u s).gaps = s.gaps := by
  rw [h.self hs]
  rfl

theorem Effect.parseGaps (h : Effect c u) (n : Nat) {t : State} (ht : t.cfg = c) :
    u (Machine.parseGaps n t) = Machine.parseGaps n (u t) := by
  rw [parseGaps_eq_fromParser, h.free _ _ ht, ← parseGaps_fromParser, ← h.self ht]

/-- An effect, interrupted, from a state already interrupted. -/
theorem Effect.interrupted (h : Effect c u) {s t : State} (ht : t.cfg = c)
    (hst : TracesExtend s t) :
    Machine.interrupted (Machine.interrupted s t) (u (Machine.interrupted s t)) =
      Machine.interrupted s (u t) := by
  have hu := h.traces t ht
  have hgaps : gapsBetween s t + gapsBetween t (u t) = gapsBetween s (u t) := by
    have := hst.dev.length_le
    have := hst.out.length_le
    have := hu.dev.length_le
    have := hu.out.length_le
    simp only [gapsBetween]
    omega
  have hsame : gapsBetween (Machine.interrupted s t) (u (Machine.interrupted s t)) =
      gapsBetween t (u t) := by
    unfold Machine.interrupted
    simp only [gapsBetween, h.parseGaps _ ht, parseGaps_dev, parseGaps_out]
  unfold Machine.interrupted at hsame ⊢
  rw [hsame, h.parseGaps _ ht, parseGaps_add, hgaps]

/-- Work goes on from an interrupted state. -/
theorem Runs.step (h : Runs c f u) {s t : State} (ht : t.cfg = c) (hst : TracesExtend s t) :
    f (interrupted s t) = .next (interrupted s (u t)) := by
  rw [h.eq _ ((interrupted_cfg s t).trans ht), h.interrupted ht hst]

/-- One piece of work after another. -/
theorem Runs.andThen (hf : Runs c f u) (hg : Runs c g v) :
    Runs c (fun s => Machine.andThen (f s) g) (fun s => v (u s)) where
  __ := hf.toEffect.comp hg.toEffect
  eq := fun s hs => by
    rw [hf.eq s hs, andThen_next, hg.step (hf.cfg s hs) (hf.traces s hs)]

/-- Work that depends on something of the state that no interrupt touches. -/
theorem Runs.depending {α : Type} {F : α → State → Host.Outcome State Fault Refusal}
    {U : α → State → State} {x : State → α} (hx : ∀ p t, x (fromParser p t) = x t)
    (h : ∀ s, s.cfg = c → Runs c (F (x s)) (U (x s))) :
    Runs c (fun s => F (x s) s) (fun s => U (x s) s) where
  eq := fun s hs => (h s hs).eq s hs
  free := fun p t ht => by rw [hx, (h t ht).free p t ht]
  traces := fun s hs => (h s hs).traces s hs
  cfg := fun s hs => (h s hs).cfg s hs

/-- Work with the gate closed or no byte arriving has its effect and nothing else. -/
theorem Runs.nextIs (h : Runs c f u) {s : State} (hs : s.cfg = c) (hq : Quiet s) :
    NextIs (f s) (u s) := by
  have hqu : Quiet (u s) := hq.congr 0 (h.op_eq hs) (h.gaps_eq hs)
  exact ⟨_, by rw [h.eq s hs, interrupted_quiet hqu]; rfl⟩

/-- A command's own rule, then the epilogue (R160, R162). -/
theorem Runs.complete_nextIs (h : Runs c f u) {s : State} (hs : s.cfg = c) (ho : s.op ≠ .idle) :
    NextIs (complete (f s)) (afterDone (u s)) := by
  obtain ⟨gaps, hn⟩ := h.nextIs hs (.of_busy ho)
  have hq : Quiet { u s with gaps := gaps } := .of_busy (by rw [h.op_eq hs]; exact ho)
  exact ⟨_, by rw [hn, complete_eq hq]; rfl⟩

/-- In every state the completed command leaves the mailbox open and `Done` as its last line. -/
theorem Runs.complete_done (h : Runs c f u) {s : State} (hs : s.cfg = c) :
    ∃ t, complete (f s) = .next t ∧ t.op = .idle ∧ ∃ own, t.out = s.out ++ own ++ doneLine := by
  obtain ⟨own, hown⟩ := (h.traces s hs).out
  refine ⟨_, by rw [h.eq s hs, complete_next], rfl, own, ?_⟩
  have hprint := (passes_printLine ackText).eq (interrupted s (u s))
  have hout : (epilogue (interrupted s (u s))).out =
      (printLine ackText (interrupted s (u s))).out := rfl
  rw [hout, hprint, interrupted_out, afterText_out, interrupted_out, ← hown]
  rfl

end

/-! ## Register lengths and byte arrays -/

theorem regLen_le (c : Config) (a : Byte) : c.regLen a ≤ 8 := by
  unfold Config.regLen
  split <;> omega

@[simp] theorem readBytes_length (m : Nat) (s : State) : (readBytes m s).length = m :=
  captured_length _ _ _

theorem captured_getElem (ans : List Byte) (n m j : Nat) (h : j < (captured ans n m).length) :
    (captured ans n m)[j] = answerAt ans (n + j) := by
  induction m generalizing n j with
  | zero => simp at h
  | succ m ih =>
    cases j with
    | zero => rfl
    | succ j =>
      simp only [captured_succ, List.getElem_cons_succ]
      rw [ih, Nat.add_assoc, Nat.add_comm 1]

/-- `putBytes` within the array: what stood before and after the bytes stays. -/
theorem toList_putBytes (v : Vector Byte 8) (i : Nat) (bs : List Byte) (h : i + bs.length ≤ 8) :
    (putBytes v i bs).toList = v.toList.take i ++ bs ++ v.toList.drop (i + bs.length) := by
  apply List.ext_getElem
  · simp only [Vector.length_toList, List.length_append, List.length_take, List.length_drop]
    omega
  · intro j hj _
    rw [Vector.length_toList] at hj
    rw [Vector.getElem_toList, getElem_putBytes v i bs j hj]
    simp only [List.getElem_append, List.length_append, List.length_take, Vector.length_toList,
      List.getElem_take, List.getElem_drop, Vector.getElem_toList]
    have hmin : min i 8 = i := by omega
    simp only [hmin]
    by_cases h1 : j < i
    · rw [dif_neg (by omega), dif_pos (by omega), dif_pos h1]
    · by_cases h2 : j < i + bs.length
      · rw [dif_pos (by omega), dif_pos h2, dif_neg h1]
      · rw [dif_neg (by omega), dif_neg h2]
        congr 1
        omega

/-- Eight bytes fill the array, whatever it held. -/
theorem putBytes_eight {v w : Vector Byte 8} {bs : List Byte} (h : bs.length = 8)
    (hw : w.toList = bs) : putBytes v 0 bs = w := by
  have hnone : v.toList.drop (0 + bs.length) = [] :=
    List.drop_of_length_le (by rw [Vector.length_toList]; omega)
  rw [← Vector.toList_inj, hw, toList_putBytes v 0 bs (by omega), hnone]
  simp

/-- The bytes a read leaves at the front of `RRB`. -/
theorem afterRead_rrb_take (k : Fin 4) (a : Byte) {m : Nat} (hm : m ≤ 8) (s : State) :
    (afterRead k a m s).rrb.toList.take m = readBytes m s := by
  have hlen : (readBytes m s).length = m := readBytes_length m s
  rw [afterRead_rrb, take_putBytes_zero _ _ m (by rw [captured_length]) hm]
  exact List.take_of_length_le hlen.le

/-- Element j of `RRB` after a read (R204). -/
theorem afterRead_rrb_getElem (k : Fin 4) (a : Byte) (m : Nat) (s : State) (j : Nat) (hj : j < 8) :
    (afterRead k a m s).rrb[j] =
      if j < m then answerAt s.answers (s.draws + 1 + j) else s.rrb[j] := by
  simp only [afterRead_rrb, getElem_putBytes, captured_length, Nat.zero_le, true_and,
    Nat.sub_zero, captured_getElem]
  split <;> rfl

/-! ## Texts -/

theorem afterText_nil (s : State) : afterText [] s = s := by
  simp [afterText]

/-- `Announce` prints the pairs of digits with single spaces between (R205). -/
theorem announceText_eq (bs : List Byte) :
    announceText bs = List.intercalate [0x20] (bs.map hex2) := by
  induction bs with
  | nil => rfl
  | cons b bs ih =>
    cases bs with
    | nil => simp [announceText, List.intercalate]
    | cons d ds =>
      rw [announceText, ih]
      simp [List.intercalate]

theorem afterReadFrame_silent (k : Fin 4) (a : Byte) (s : State) :
    afterReadFrame k a false s = afterRead k a (s.cfg.regLen a) s := by
  simp [afterReadFrame, afterText_nil]

/-! ## The operations that answer an outcome -/

section
variable {c : Config}

theorem runs_next {u : State → State} (free : ∀ p t, u (fromParser p t) = fromParser p (u t))
    (hd : ∀ s, (u s).dev = s.dev) (ho : ∀ s, (u s).out = s.out) (hc : ∀ s, (u s).cfg = s.cfg) :
    Runs c (fun s => .next (u s)) u :=
  (Passes.update free hd ho).runs (fun s => .of_eq (ho s) (hd s)) hc

theorem runs_printLine (cs : List Byte) :
    Runs c (fun s => .next (printLine cs s)) (afterText (line cs)) :=
  (passes_printLine cs).runs (fun _ => ⟨List.prefix_append _ _, List.prefix_rfl⟩) fun _ => rfl

theorem runs_strobe : Runs c (fun s => .next (strobe s)) afterStrobe :=
  passes_strobe.runs (fun _ => ⟨List.prefix_rfl, List.prefix_append _ _⟩) fun _ => rfl

theorem runs_raise {e : ErrCause} {cs : List Byte} (h : e.report = some cs) :
    Runs c (raise e) (afterText (line cs)) :=
  (runs_printLine cs).congr_work fun s _ => by rw [raise, h]

/-- `DevWrite` within its preconditions (R200, R203). -/
theorem runs_devWrite {slot : Fin 8} (hk : slot.val < numSlots) {addr : Byte} {data : List Byte}
    (hl : 0 < c.regLen addr) (hd : c.regLen addr ≤ data.length) :
    Runs c (devWrite slot addr data)
      (afterWrite ⟨slot.val, hk⟩ addr (data.take (c.regLen addr))) where
  eq := by
    rintro s rfl
    exact devWrite_interrupted hk hl hd
  free := fun _ _ _ => rfl
  traces := fun _ _ => ⟨List.prefix_rfl, List.prefix_append _ _⟩
  cfg := fun _ hs => hs

/-- `DevWrite` of exactly the register's length. -/
theorem runs_devWrite_all {slot : Fin 8} (hk : slot.val < numSlots) {addr : Byte} {data : List Byte}
    (hl : 0 < c.regLen addr) (hd : data.length = c.regLen addr) :
    Runs c (devWrite slot addr data) (afterWrite ⟨slot.val, hk⟩ addr data) :=
  (runs_devWrite hk hl hd.ge).congr_effect fun s _ => by rw [List.take_of_length_le hd.le]

/-- `DevRead` within its preconditions (R200, R204, R205). -/
theorem runs_devRead {slot : Fin 8} (hk : slot.val < numSlots) {addr : Byte}
    (hl : 0 < c.regLen addr) (announce : Bool) :
    Runs c (devRead slot addr announce) (afterReadFrame ⟨slot.val, hk⟩ addr announce) where
  eq := by
    rintro s rfl
    rw [devRead_interrupted hk hl]
    cases announce with
    | false => rw [afterReadFrame_silent]; rfl
    | true =>
      simp only [if_true, afterReadFrame, announceText_eq,
        afterRead_rrb_take _ addr (regLen_le s.cfg addr)]
  free := fun _ _ _ => rfl
  traces := fun _ _ => ⟨List.prefix_append _ _, List.prefix_append _ _⟩
  cfg := fun _ hs => hs

theorem runs_devRead_silent {slot : Fin 8} (hk : slot.val < numSlots) {addr : Byte}
    (hl : 0 < c.regLen addr) :
    Runs c (devRead slot addr false) (afterRead ⟨slot.val, hk⟩ addr (c.regLen addr)) :=
  (runs_devRead hk hl false).congr_effect fun s hs => by rw [afterReadFrame_silent, hs]

/-! The slot check (R163). -/

theorem runs_checkSlot {slot : Fin 8} {body : State → Host.Outcome State Fault Refusal}
    {u : State → State} (hk : slot.val < numSlots) (h : Runs c body u) :
    Runs c (fun s => checkSlot slot s body) u :=
  h.congr_work fun s _ => by rw [checkSlot, if_pos hk]

theorem runs_checkSlot_unwired {slot : Fin 8} (body : State → Host.Outcome State Fault Refusal)
    (hk : ¬ slot.val < numSlots) :
    Runs c (fun s => checkSlot slot s body)
      (afterText (line (text ['E', 'R', 'R', ' ', 's', 'l', 'o', 't']))) :=
  (runs_raise (e := .slot) rfl).congr_work fun s _ => by rw [checkSlot, if_neg hk]

/-- Initialisation of one device, with the data of R8 (R206). -/
theorem runs_initDevice (hv : c.Valid) {slot : Fin 8} (hk : slot.val < numSlots) :
    Runs c (initDevice slot) (afterInit ⟨slot.val, hk⟩) := by
  have hrefdiv : Runs c (fun s => devWrite slot s.cfg.addrRefdiv s.cfg.dataRefdiv (strobe s))
      (fun s => afterWrite ⟨slot.val, hk⟩ c.addrRefdiv c.dataRefdiv (afterStrobe s)) :=
    (runs_strobe.andThen (runs_devWrite_all hk hv.refdiv hv.refdivLen)).congr_work (by
      rintro s rfl
      rfl)
  have hwire3 : Runs c (fun s => devWrite slot s.cfg.addr3wire s.cfg.data3wire s)
      (afterWrite ⟨slot.val, hk⟩ c.addr3wire c.data3wire) :=
    (runs_devWrite_all hk hv.wire3 hv.wire3Len).congr_work (by
      rintro s rfl
      rfl)
  have hampctl : Runs c (fun s => devWrite slot s.cfg.addrAmpctl s.cfg.dataAmpctl s)
      (afterWrite ⟨slot.val, hk⟩ c.addrAmpctl c.dataAmpctl) :=
    (runs_devWrite_all hk hv.ampctl hv.ampctlLen).congr_work (by
      rintro s rfl
      rfl)
  cases hr : c.readCapable with
  | true =>
    refine (hrefdiv.andThen ((hwire3.andThen hampctl).congr_work (g := fun s =>
      if s.cfg.readCapable then _ else .next s) fun s hs => ?_)).congr_effect fun s hs => ?_
    · rw [hs, if_pos hr]
    · subst hs
      simp only [afterInit, hr, if_true]
  | false =>
    refine (hrefdiv.andThen ((runs_next (u := id) (fun _ _ => rfl) (fun _ => rfl) (fun _ => rfl)
      fun _ => rfl).congr_work (g := fun s => if s.cfg.readCapable then _ else .next s)
        fun s hs => ?_)).congr_effect fun s hs => ?_
    · rw [hs, hr]
      rfl
    · subst hs
      simp [afterInit, hr]

/-- Initialisation of every device, slots in increasing order (R206). -/
theorem runs_resetAllDevices (hv : c.Valid) : Runs c resetAllDevices afterInitAll := by
  have hnil : Runs c (initDevices []) id :=
    runs_next (fun _ _ => rfl) (fun _ => rfl) (fun _ => rfl) fun _ => rfl
  have slot (k : Fin 8) (hk : k.val < numSlots) := runs_initDevice hv hk
  exact (slot 0 (by decide)).andThen ((slot 1 (by decide)).andThen ((slot 2 (by decide)).andThen
    ((slot 3 (by decide)).andThen hnil)))

/-! ## Profiles (R170, R171) -/

/-- With read capability the profile is what a silent read captures. -/
theorem runs_loadProfile_read (hv : c.Valid) (hr : c.readCapable = true) {slot : Fin 8}
    (hk : slot.val < numSlots) :
    Runs c (loadProfile slot) (fun s =>
      let t := afterRead ⟨slot.val, hk⟩ c.addrProfile0 8 s
      { t with buf := t.rrb }) := by
  have hread := runs_devRead_silent (c := c) hk (addr := c.addrProfile0)
    (by rw [hv.profile0]; omega)
  rw [hv.profile0] at hread
  refine (hread.andThen (runs_next (u := fun s => { s with buf := s.rrb }) (fun _ _ => rfl)
    (fun _ => rfl) (fun _ => rfl) fun _ => rfl)).congr_work ?_
  rintro s rfl
  rw [loadProfile, if_pos hr]

/-- Without, it is the default. -/
theorem runs_loadProfile_default (hr : c.readCapable = false) (slot : Fin 8) :
    Runs c (loadProfile slot) (fun s => { s with buf := c.defaultProfile0 }) := by
  refine (runs_next (u := fun s => { s with buf := c.defaultProfile0 }) (fun _ _ => rfl)
    (fun _ => rfl) (fun _ => rfl) fun _ => rfl).congr_work ?_
  rintro s rfl
  rw [loadProfile, hr]
  rfl

/-- The profile with the typed bytes in it is written back. -/
theorem runs_storeProfile (hv : c.Valid) {slot : Fin 8} (hk : slot.val < numSlots) (i : Nat)
    (bytes : List Byte) :
    Runs c (storeProfile slot i bytes) (fun s =>
      afterWrite ⟨slot.val, hk⟩ c.addrProfile0 (putBytes s.buf i bytes).toList
        { s with buf := putBytes s.buf i bytes }) := by
  refine (Runs.depending (x := fun s => putBytes s.buf i bytes)
    (F := fun b s => devWrite slot c.addrProfile0 b.toList { s with buf := b })
    (U := fun b s => afterWrite ⟨slot.val, hk⟩ c.addrProfile0 b.toList { s with buf := b })
    (fun _ _ => rfl) fun s _ => ?_).congr_work ?_
  · have hwrite := runs_devWrite_all hk (c := c) (addr := c.addrProfile0)
      (data := (putBytes s.buf i bytes).toList) (by rw [hv.profile0]; omega) (by simp [hv.profile0])
    exact (runs_next (u := fun t => { t with buf := putBytes s.buf i bytes }) (fun _ _ => rfl)
      (fun _ => rfl) (fun _ => rfl) fun _ => rfl).andThen hwrite
  · rintro s rfl
    rfl

/-! ## `PRESENCE` (R167) -/

/-- What one probe adds to the list. -/
def presentLabel (slot : Fin 8) (s : State) : List Byte :=
  if s.rrb[2] ≠ 0 then presenceLabel slot else []

theorem runs_probeSlots_nil (found : List Byte) :
    Runs c (probeSlots [] found) (afterText (line found)) := runs_printLine found

theorem runs_probeSlots_cons (hv : c.Valid) {k : Fin 8} (hk : k.val < numSlots) {ks : List (Fin 8)}
    {found : List Byte} {v : List Byte → State → State}
    (h : ∀ found, Runs c (probeSlots ks found) (v found)) :
    Runs c (probeSlots (k :: ks) found) (fun s =>
      let t := afterRead ⟨k.val, hk⟩ c.addrProbe (c.regLen c.addrProbe) s
      v (found ++ presentLabel k t) t) := by
  have hread := runs_devRead_silent (c := c) hk (addr := c.addrProbe) (by have := hv.probe; omega)
  have hlist : ∀ s, found ++ presentLabel k s =
      if s.rrb[2] ≠ 0 then found ++ presenceLabel k else found := by
    intro s
    unfold presentLabel
    split <;> simp
  refine (hread.andThen (Runs.depending (x := fun s => found ++ presentLabel k s)
    (F := probeSlots ks) (U := v) (fun _ _ => rfl) fun s _ => h _)).congr_work ?_
  rintro s rfl
  simp only [hlist]
  rfl
end

end Sys2Proof.Machine

/-! The commands of the dispatcher (41_dispatcher.md) and the frames (42_transfer.md): the rule of
each command, its effect, and the statements about them. -/
namespace Sys2Proof.Machine

/-! ## The rule of a command, its epilogue apart (R160) -/

/-- What `exec` does before the epilogue; `ABORT` and the frames have no epilogue. -/
def rule (i : Instr) (s : State) : Host.Outcome State Fault Refusal :=
  match i with
  | .resetAll => resetAllDevices s
  | .presence => if s.cfg.readCapable then probeSlots allSlots [] s else raise .noRead s
  | .abort => exec .abort s
  | .idn => .next (printLine s.cfg.idnString s)
  | .test slot => checkSlot slot s fun s =>
    devWrite slot s.cfg.addrTest (s.cfg.testData (toggleTestBit s).testBit) (toggleTestBit s)
  | .rdreg slot addr => checkSlot slot s fun s =>
    if s.cfg.regLen addr = 0 then raise .register s
    else if s.cfg.readCapable then devRead slot addr true s
    else raise .noRead s
  | .wrreg slot addr data => checkSlot slot s fun s =>
    if s.cfg.regLen addr = 0 then raise .register s
    else if data.length < s.cfg.regLen addr then raise .shortWrite s
    else devWrite slot addr ((loadBuf data s).buf.toList.take (s.cfg.regLen addr)) (loadBuf data s)
  | .setf slot f0 f1 f2 f3 => checkSlot slot s fun s =>
    andThen (loadProfile slot s) (storeProfile slot 4 [f0, f1, f2, f3])
  | .seta slot w0 w1 => checkSlot slot s fun s =>
    andThen (loadProfile slot s) (storeProfile slot 0 [w0, w1])
  | .setp _ _ _ => raise .unimplemented s
  | .spiWr slot a data => exec (.spiWr slot a data) s
  | .spiRd slot a announce => exec (.spiRd slot a announce) s

/-- A command of the dispatcher is its rule, then the epilogue (R160, R162). -/
theorem exec_eq_complete {i : Instr} (hc : i.isFrame = false) (ha : i ≠ .abort) (s : State) :
    exec i s = complete (rule i s) := by
  cases i with
  | abort => exact absurd rfl ha
  | spiWr slot a data => cases hc
  | spiRd slot a announce => cases hc
  | _ => rfl

/-- The next state of a pending command, from the effect of its rule. -/
theorem Runs.exec_nextIs {c : Config} {i : Instr} {u : State → State} (h : Runs c (rule i) u)
    {s : State} (hs : s.cfg = c) (ho : s.op ≠ .idle) (hc : i.isFrame = false := by rfl)
    (ha : i ≠ .abort := by nofun) : NextIs (exec i s) (afterDone (u s)) := by
  rw [exec_eq_complete hc ha]
  exact h.complete_nextIs hs ho

/-! ## The effects of the rules -/

section
variable {c : Config}

/-- A reported error of a command: the line and nothing else. -/
def reported (cs : List Char) : State → State := afterText (line (text cs))

theorem runs_idn : Runs c (rule .idn) (afterText (line c.idnString)) :=
  (runs_printLine c.idnString).congr_work (by
    rintro s rfl
    rfl)

theorem runs_setp (slot : Fin 8) (w0 w1 : Byte) : Runs c (rule (.setp slot w0 w1))
    (reported ['U', 'n', 'i', 'm', 'p', 'l', 'e', 'm', 'e', 'n', 't', 'e', 'd']) :=
  runs_raise (e := .unimplemented) rfl

/-- TEST (R164, D25). -/
theorem runs_test (hv : c.Valid) {slot : Fin 8} (hk : slot.val < numSlots) :
    Runs c (rule (.test slot)) (fun s =>
      afterWrite ⟨slot.val, hk⟩ c.addrTest (c.testData (!s.testBit)) (toggleTestBit s)) := by
  refine runs_checkSlot hk ((Runs.depending (x := fun s => c.testData (!s.testBit))
    (F := fun data s => devWrite slot c.addrTest data (toggleTestBit s))
    (U := fun data s => afterWrite ⟨slot.val, hk⟩ c.addrTest data (toggleTestBit s))
    (fun _ _ => rfl) fun s _ => ?_).congr_work ?_)
  · have htoggle : Runs c (fun s => .next (toggleTestBit s)) toggleTestBit :=
      runs_next (fun _ _ => rfl) (fun _ => rfl) (fun _ => rfl) fun _ => rfl
    exact htoggle.andThen (runs_devWrite_all hk hv.test (hv.testLen _))
  · rintro s rfl
    rfl

theorem runs_presence_blind (hr : c.readCapable = false) : Runs c (rule .presence)
    (reported ['E', 'R', 'R', ' ', 'n', 'o', 'r', 'e', 'a', 'd']) :=
  (runs_raise (e := .noRead) rfl).congr_work (by
    rintro s rfl
    simp [rule, hr])

/-- The list of all four probes is the list `PRESENCE` prints: the probe of slot k draws m + 1
answers and its third captured byte is at element 2 of `RRB`. -/
theorem presentText_eq {m : Nat} (hm : 3 ≤ m) (a : Byte) (s : State) :
    let t0 := afterRead 0 a m s
    let t1 := afterRead 1 a m t0
    let t2 := afterRead 2 a m t1
    [] ++ presentLabel 0 t0 ++ presentLabel 1 t1 ++ presentLabel 2 t2 ++
      presentLabel 3 (afterRead 3 a m t2) = presentText m s := by
  have hthird (k : Fin 4) (t : State) :
      (afterRead k a m t).rrb[2] = answerAt t.answers (t.draws + 3) := by
    rw [afterRead_rrb_getElem k a m t 2 (by omega), if_pos (by omega)]
  have h2 : s.draws + (m + 1) + (m + 1) + 3 = s.draws + 2 * (m + 1) + 3 := by omega
  have h3 : s.draws + (m + 1) + (m + 1) + (m + 1) + 3 = s.draws + 3 * (m + 1) + 3 := by omega
  simp only [presentLabel, hthird, afterRead_answers, afterRead_draws, presentText,
    List.flatMap_cons, List.flatMap_nil, List.append_nil, List.nil_append, List.append_assoc,
    Nat.zero_mul, Nat.add_zero, Nat.one_mul, h2, h3]
  rfl

/-- PRESENCE (R167, D26). -/
theorem runs_presence (hv : c.Valid) (hr : c.readCapable = true) :
    Runs c (rule .presence) (fun s =>
      let m := c.regLen c.addrProbe
      afterText (line (presentText m s))
        (afterRead 3 c.addrProbe m (afterRead 2 c.addrProbe m (afterRead 1 c.addrProbe m
          (afterRead 0 c.addrProbe m s))))) := by
  have h3 (found : List Byte) := runs_probeSlots_cons hv (k := 3) (by decide) (found := found)
    (ks := []) runs_probeSlots_nil
  have h2 (found : List Byte) := runs_probeSlots_cons hv (k := 2) (by decide) (found := found) h3
  have h1 (found : List Byte) := runs_probeSlots_cons hv (k := 1) (by decide) (found := found) h2
  have h0 := runs_probeSlots_cons hv (k := 0) (by decide) (found := []) h1
  refine h0.congr (fun s hs => ?_) fun s hs => ?_
  · rw [← hs] at hr
    rw [rule, if_pos hr]
    rfl
  · exact congrArg (fun found => afterText (line found) _) (presentText_eq hv.probe c.addrProbe s)

/-- WRREG of enough bytes (R168, D10). -/
theorem runs_wrreg {slot : Fin 8} (hk : slot.val < numSlots) {addr : Byte} {data : List Byte}
    (hl : 0 < c.regLen addr) (hd : c.regLen addr ≤ data.length) :
    Runs c (rule (.wrreg slot addr data)) (fun s =>
      afterWrite ⟨slot.val, hk⟩ addr (data.take (c.regLen addr)) (loadBuf data s)) := by
  have h8 := regLen_le c addr
  have hload : Runs c (fun s => .next (loadBuf data s)) (loadBuf data) :=
    runs_next (fun _ _ => rfl) (fun _ => rfl) (fun _ => rfl) fun _ => rfl
  have hbuf (s : State) : (loadBuf data s).buf.toList.take (c.regLen addr) =
      data.take (c.regLen addr) := by
    rw [loadBuf_buf, take_putBytes_zero _ _ _ (by rw [List.length_take]; omega) h8,
      List.take_take, Nat.min_eq_left h8]
  refine runs_checkSlot hk ((hload.andThen (runs_devWrite_all hk hl
    (data := data.take (c.regLen addr)) (by rw [List.length_take]; omega))).congr_work ?_)
  rintro s rfl
  rw [if_neg (by omega), if_neg (by omega), hbuf]
  rfl

theorem runs_wrreg_register {slot : Fin 8} (hk : slot.val < numSlots) {addr : Byte}
    (data : List Byte) (hl : c.regLen addr = 0) : Runs c (rule (.wrreg slot addr data))
    (reported ['E', 'R', 'R', ' ', 'r', 'e', 'g', 'i', 's', 't', 'e', 'r']) :=
  runs_checkSlot hk ((runs_raise (e := .register) rfl).congr_work (by
    rintro s rfl
    rw [if_pos hl]))

theorem runs_wrreg_short {slot : Fin 8} (hk : slot.val < numSlots) {addr : Byte}
    {data : List Byte} (hd : data.length < c.regLen addr) : Runs c (rule (.wrreg slot addr data))
    (reported ['E', 'R', 'R', ' ', 'l', 'e', 'n', 'g', 't', 'h']) :=
  runs_checkSlot hk ((runs_raise (e := .shortWrite) rfl).congr_work (by
    rintro s rfl
    rw [if_neg (by omega), if_pos hd]))

/-- RDREG (R169). -/
theorem runs_rdreg {slot : Fin 8} (hk : slot.val < numSlots) {addr : Byte}
    (hl : 0 < c.regLen addr) (hr : c.readCapable = true) :
    Runs c (rule (.rdreg slot addr)) (afterReadFrame ⟨slot.val, hk⟩ addr true) :=
  runs_checkSlot hk ((runs_devRead hk hl true).congr_work (by
    rintro s rfl
    rw [if_neg (by omega), if_pos hr]))

theorem runs_rdreg_register {slot : Fin 8} (hk : slot.val < numSlots) {addr : Byte}
    (hl : c.regLen addr = 0) : Runs c (rule (.rdreg slot addr))
    (reported ['E', 'R', 'R', ' ', 'r', 'e', 'g', 'i', 's', 't', 'e', 'r']) :=
  runs_checkSlot hk ((runs_raise (e := .register) rfl).congr_work (by
    rintro s rfl
    rw [if_pos hl]))

theorem runs_rdreg_blind {slot : Fin 8} (hk : slot.val < numSlots) {addr : Byte}
    (hl : 0 < c.regLen addr) (hr : c.readCapable = false) : Runs c (rule (.rdreg slot addr))
    (reported ['E', 'R', 'R', ' ', 'n', 'o', 'r', 'e', 'a', 'd']) :=
  runs_checkSlot hk ((runs_raise (e := .noRead) rfl).congr_work (by
    rintro s rfl
    rw [if_neg (by omega), if_neg (by rw [hr]; nofun)]))

/-! The word commands: the profile `p` the command finds, with the typed bytes in it, is what `BUF`
holds and what is written back (R170, R171). -/

/-- A profile with bytes put in from element i on, as the eight bytes of a write. -/
theorem runs_setProfile (hv : c.Valid) {slot : Fin 8} (hk : slot.val < numSlots) {i : Nat}
    {bytes : List Byte} (hi : i + bytes.length ≤ 8) {u : State → State}
    (hu : Runs c (loadProfile slot) u) :
    Runs c (fun s => checkSlot slot s fun s =>
        andThen (loadProfile slot s) (storeProfile slot i bytes))
      (fun s =>
        let p := (u s).buf.toList.take i ++ bytes ++ (u s).buf.toList.drop (i + bytes.length)
        afterWrite ⟨slot.val, hk⟩ c.addrProfile0 p { u s with buf := putBytes s.buf 0 p }) := by
  refine runs_checkSlot hk ((hu.andThen (runs_storeProfile hv hk i bytes)).congr_effect
    fun s _ => ?_)
  have hp := toList_putBytes (u s).buf i bytes hi
  have hlen : (putBytes (u s).buf i bytes).toList.length = 8 := Vector.length_toList
  dsimp only
  rw [← hp, putBytes_eight hlen rfl]

/-- The profile read from the device is all of `RRB`. -/
theorem afterRead_rrb_eight (k : Fin 4) (a : Byte) (s : State) :
    (afterRead k a 8 s).rrb.toList = readBytes 8 s := by
  have h := afterRead_rrb_take k a (Nat.le_refl 8) s
  rwa [List.take_of_length_le (by rw [Vector.length_toList])] at h

/-- SETF (R170, D24). -/
theorem runs_setf (hv : c.Valid) {slot : Fin 8} (hk : slot.val < numSlots) (f0 f1 f2 f3 : Byte)
    {u : State → State} (hu : Runs c (loadProfile slot) u) :
    Runs c (rule (.setf slot f0 f1 f2 f3)) (fun s =>
      let p := (u s).buf.toList.take 4 ++ [f0, f1, f2, f3]
      afterWrite ⟨slot.val, hk⟩ c.addrProfile0 p { u s with buf := putBytes s.buf 0 p }) :=
  (runs_setProfile hv hk (i := 4) (bytes := [f0, f1, f2, f3]) (by simp) hu).congr_effect
    fun s _ => by simp [List.drop_of_length_le]

/-- SETA (R171). -/
theorem runs_seta (hv : c.Valid) {slot : Fin 8} (hk : slot.val < numSlots) (w0 w1 : Byte)
    {u : State → State} (hu : Runs c (loadProfile slot) u) :
    Runs c (rule (.seta slot w0 w1)) (fun s =>
      let p := [w0, w1] ++ (u s).buf.toList.drop 2
      afterWrite ⟨slot.val, hk⟩ c.addrProfile0 p { u s with buf := putBytes s.buf 0 p }) :=
  (runs_setProfile hv hk (i := 0) (bytes := [w0, w1]) (by simp) hu).congr_effect
    fun s _ => by simp

/-- With a valid configuration every rule of the dispatcher goes on (R176 (2)). -/
theorem exists_runs_rule (hv : c.Valid) {i : Instr} (hc : i.isFrame = false) (ha : i ≠ .abort) :
    ∃ u, Runs c (rule i) u := by
  have load (slot : Fin 8) (hk : slot.val < numSlots) : ∃ u, Runs c (loadProfile slot) u := by
    cases hr : c.readCapable with
    | true => exact ⟨_, runs_loadProfile_read hv hr hk⟩
    | false => exact ⟨_, runs_loadProfile_default hr slot⟩
  cases i with
  | resetAll => exact ⟨_, runs_resetAllDevices hv⟩
  | presence =>
    cases hr : c.readCapable with
    | true => exact ⟨_, runs_presence hv hr⟩
    | false => exact ⟨_, runs_presence_blind hr⟩
  | abort => exact absurd rfl ha
  | idn => exact ⟨_, runs_idn⟩
  | test slot =>
    by_cases hk : slot.val < numSlots
    · exact ⟨_, runs_test hv hk⟩
    · exact ⟨_, runs_checkSlot_unwired _ hk⟩
  | rdreg slot addr =>
    by_cases hk : slot.val < numSlots
    swap
    · exact ⟨_, runs_checkSlot_unwired _ hk⟩
    rcases Nat.eq_zero_or_pos (c.regLen addr) with hl | hl
    · exact ⟨_, runs_rdreg_register hk hl⟩
    cases hr : c.readCapable with
    | true => exact ⟨_, runs_rdreg hk hl hr⟩
    | false => exact ⟨_, runs_rdreg_blind hk hl hr⟩
  | wrreg slot addr data =>
    by_cases hk : slot.val < numSlots
    swap
    · exact ⟨_, runs_checkSlot_unwired _ hk⟩
    rcases Nat.eq_zero_or_pos (c.regLen addr) with hl | hl
    · exact ⟨_, runs_wrreg_register hk data hl⟩
    rcases Nat.lt_or_ge data.length (c.regLen addr) with hd | hd
    · exact ⟨_, runs_wrreg_short hk hd⟩
    · exact ⟨_, runs_wrreg hk hl hd⟩
  | setf slot f0 f1 f2 f3 =>
    by_cases hk : slot.val < numSlots
    · obtain ⟨u, hu⟩ := load slot hk
      exact ⟨_, runs_setf hv hk f0 f1 f2 f3 hu⟩
    · exact ⟨_, runs_checkSlot_unwired _ hk⟩
  | seta slot w0 w1 =>
    by_cases hk : slot.val < numSlots
    · obtain ⟨u, hu⟩ := load slot hk
      exact ⟨_, runs_seta hv hk w0 w1 hu⟩
    · exact ⟨_, runs_checkSlot_unwired _ hk⟩
  | setp slot w0 w1 => exact ⟨_, runs_setp slot w0 w1⟩
  | spiWr slot a data => cases hc
  | spiRd slot a announce => cases hc

end

/-! ## The statements about the commands

Each is the effect of the command's rule, then the epilogue (`Runs.exec_nextIs`). -/

/-- Settles O39: every rule goes on, and the epilogue comes last. -/
theorem everyCommandCompletesWithDone : Obligations.EveryCommandCompletesWithDone := by
  intro s i hv hc ha
  obtain ⟨u, hu⟩ := exists_runs_rule hv hc ha
  rw [exec_eq_complete hc ha]
  exact hu.complete_done rfl

/-- Settles O26, by the effect of the rule of TEST. -/
theorem testTogglesThenWritesTheTestRegister :
    Obligations.TestTogglesThenWritesTheTestRegister :=
  fun _ _ h hv ho => (runs_test hv h).exec_nextIs rfl ho

/-- Settles O27, by the effect of the rule of IDN. -/
theorem idnPrintsTheIdentification : Obligations.IdnPrintsTheIdentification :=
  fun _ ho => runs_idn.exec_nextIs rfl ho

/-- Settles O28: the rule of RESET_ALL is the initialisation of every device. -/
theorem resetAllInitialisesEverySlot : Obligations.ResetAllInitialisesEverySlot :=
  fun _ hv ho => Runs.exec_nextIs (i := .resetAll) (runs_resetAllDevices hv) rfl ho

/-- Settles O29, by the effect of four probes and `presentText_eq`. -/
theorem presenceListsTheSlotsThatAnswer : Obligations.PresenceListsTheSlotsThatAnswer :=
  fun _ hv ho hr => (runs_presence hv hr).exec_nextIs rfl ho

/-- Settles O30: the bytes that go out are the front of `BUF`, which is the front of those typed. -/
theorem wrregWritesTheFirstBytesTyped : Obligations.WrregWritesTheFirstBytesTyped :=
  fun _ _ h _ _ ho hl hd => (runs_wrreg h hl hd).exec_nextIs rfl ho

/-- Settles O31: an announced read of the register. -/
theorem rdregPrintsTheCapturedBytes : Obligations.RdregPrintsTheCapturedBytes :=
  fun _ _ h _ ho hl hr => (runs_rdreg h hl hr).exec_nextIs rfl ho

/-- Settles O32: the profile is what `loadProfile` leaves in `BUF`. -/
theorem setfKeepsTheFirstFourBytes : Obligations.SetfKeepsTheFirstFourBytes := by
  intro s slot h f0 f1 f2 f3 hv ho
  refine ⟨fun hr => ?_, fun hr => ?_⟩
  · have hs := (runs_setf hv h f0 f1 f2 f3 (runs_loadProfile_read hv hr h)).exec_nextIs rfl ho
    simpa only [afterRead_rrb_eight] using hs
  · exact (runs_setf hv h f0 f1 f2 f3 (runs_loadProfile_default hr slot)).exec_nextIs rfl ho

/-- Settles O33, as O32 with the typed bytes at the front. -/
theorem setaKeepsTheLastSixBytes : Obligations.SetaKeepsTheLastSixBytes := by
  intro s slot h w0 w1 hv ho
  refine ⟨fun hr => ?_, fun hr => ?_⟩
  · have hs := (runs_seta hv h w0 w1 (runs_loadProfile_read hv hr h)).exec_nextIs rfl ho
    simpa only [afterRead_rrb_eight] using hs
  · exact (runs_seta hv h w0 w1 (runs_loadProfile_default hr slot)).exec_nextIs rfl ho

/-- Settles O34: the rule of SETP is the error alone. -/
theorem setpReportsUnimplemented : Obligations.SetpReportsUnimplemented :=
  fun _ slot w0 w1 ho => (runs_setp slot w0 w1).exec_nextIs rfl ho

/-- Settles O35: the five rules begin with the slot check. -/
theorem unwiredSlotIsReportedAndNotForwarded :
    Obligations.UnwiredSlotIsReportedAndNotForwarded := by
  intro s slot i ho hk hi
  have unwired (body : State → Host.Outcome State Fault Refusal) :=
    runs_checkSlot_unwired (c := s.cfg) body (Nat.not_lt.mpr hk)
  rcases hi with rfl | ⟨addr, rfl⟩ | ⟨addr, data, rfl⟩ | ⟨f0, f1, f2, f3, rfl⟩ | ⟨w0, w1, rfl⟩
  · exact Runs.exec_nextIs (i := .test slot) (unwired _) rfl ho
  · exact Runs.exec_nextIs (i := .rdreg slot addr) (unwired _) rfl ho
  · exact Runs.exec_nextIs (i := .wrreg slot addr data) (unwired _) rfl ho
  · exact Runs.exec_nextIs (i := .setf slot f0 f1 f2 f3) (unwired _) rfl ho
  · exact Runs.exec_nextIs (i := .seta slot w0 w1) (unwired _) rfl ho

/-- Settles O36: on a wired slot both rules look at the register's length first. -/
theorem untransferableRegisterIsReported : Obligations.UntransferableRegisterIsReported := by
  rintro s slot addr i ho hk hl (rfl | ⟨data, rfl⟩)
  · exact (runs_rdreg_register hk hl).exec_nextIs rfl ho
  · exact (runs_wrreg_register hk data hl).exec_nextIs rfl ho

/-- Settles O37, by the second check of the rule of WRREG. -/
theorem shortWriteIsReported : Obligations.ShortWriteIsReported :=
  fun _ _ _ _ ho hk _ hd => (runs_wrreg_short hk hd).exec_nextIs rfl ho

/-- Settles O38, by the read-capability check of the two rules. -/
theorem readsWithoutCapabilityAreReported : Obligations.ReadsWithoutCapabilityAreReported := by
  rintro s i ho hr (rfl | ⟨slot, addr, rfl, hk, hl⟩)
  · exact (runs_presence_blind hr).exec_nextIs rfl ho
  · exact (runs_rdreg_blind hk hl hr).exec_nextIs rfl ho

/-! ## The statements about the frames -/

/-- Settles O40: `DevWrite` within its preconditions runs with the effect of a write transfer. -/
theorem writeFrameDrivesTheWriteTransfer : Obligations.WriteFrameDrivesTheWriteTransfer := by
  intro s slot h a data hl hd
  have hrun := runs_devWrite (c := s.cfg) h hl hd
  exact ⟨hrun.nextIs rfl, _, hrun.eq s rfl, deviceSide_interrupted _ _, rfl⟩

/-- Settles O41: `DevRead` within its preconditions runs with the effect of a read frame. -/
theorem readFrameCapturesTheRegister : Obligations.ReadFrameCapturesTheRegister := by
  intro s slot h a announce hl
  have hrun := runs_devRead (c := s.cfg) h hl announce
  exact ⟨hrun.nextIs rfl, _, hrun.eq s rfl, deviceSide_interrupted _ _, rfl⟩

/-- Settles O42: `RRB` is outside the parser, so it is as the read transfer leaves it. -/
theorem capturedBytesOverwriteOnlyTheFirstElements :
    Obligations.CapturedBytesOverwriteOnlyTheFirstElements := by
  intro s slot a announce h hl
  refine ⟨_, (runs_devRead (c := s.cfg) h hl announce).eq s rfl, fun j hj => ?_⟩
  have hrrb := interrupted_rrb s (afterReadFrame ⟨slot.val, h⟩ (a.setWidth 8) announce s)
  simp only [hrrb]
  exact afterRead_rrb_getElem ⟨slot.val, h⟩ (a.setWidth 8) _ s j hj

/-! Calls outside the preconditions (R209). -/

theorem devWrite_unwired {slot : Fin 8} (hk : ¬ slot.val < numSlots) (addr : Byte)
    (data : List Byte) (s : State) : devWrite slot addr data s = .refused .transferSlot := by
  rw [devWrite, dif_neg hk]

theorem devRead_unwired {slot : Fin 8} (hk : ¬ slot.val < numSlots) (addr : Byte)
    (announce : Bool) (s : State) : devRead slot addr announce s = .refused .transferSlot := by
  rw [devRead, dif_neg hk]

theorem devWrite_untransferable {slot : Fin 8} (hk : slot.val < numSlots) {addr : Byte}
    (data : List Byte) {s : State} (hl : s.cfg.regLen addr = 0) :
    devWrite slot addr data s = .refused .transferLength := by
  rw [devWrite, dif_pos hk, if_pos hl]

theorem devRead_untransferable {slot : Fin 8} (hk : slot.val < numSlots) {addr : Byte}
    (announce : Bool) {s : State} (hl : s.cfg.regLen addr = 0) :
    devRead slot addr announce s = .refused .transferLength := by
  rw [devRead, dif_pos hk, if_pos hl]

theorem devWrite_short {slot : Fin 8} (hk : slot.val < numSlots) {addr : Byte} {data : List Byte}
    {s : State} (hd : data.length < s.cfg.regLen addr) :
    devWrite slot addr data s = .refused .transferData := by
  rw [devWrite, dif_pos hk, if_neg (by omega), if_pos hd]

/-- Settles O43, one refusal for each precondition. -/
theorem callsOutsideThePreconditionsAreRefused :
    Obligations.CallsOutsideThePreconditionsAreRefused := by
  intro s slot a data announce
  refine ⟨fun hk => ?_, fun hk hl => ?_, fun hk hd => devWrite_short hk hd⟩
  · have hk := Nat.not_lt.mpr hk
    exact ⟨devWrite_unwired hk _ _ _, devRead_unwired hk _ _ _⟩
  · exact ⟨devWrite_untransferable hk _ hl, devRead_untransferable hk _ hl⟩

end Sys2Proof.Machine

/-! The invariant of the controller (10_state.md, 42_transfer.md section 5): every operation keeps
it, so every instruction does; the calls of the boot sequence are acceptable; and a step from a
state that meets it always goes on. -/
namespace Sys2Proof.Machine

/-! ## What an instruction keeps -/

/-- The bus invariant is about the lines and the trace alone. -/
theorem BusInv.of_lines {s t : State} (h : BusInv s) (hrst : t.rst = s.rst)
    (hioup : t.ioup = s.ioup) (hcs : t.cs = s.cs) (hdev : t.dev = s.dev) : BusInv t where
  rst := hrst.trans h.rst
  ioup := hioup.trans h.ioup
  cs := hcs.trans h.cs
  trace := by rw [hdev, h.trace]
  settled := by rw [hdev, h.settled]

/-- From `s` to `t` the parser's and the bus invariant are kept, and the configuration and the
awaiting calls stay. -/
structure KeepsInv (s t : State) : Prop where
  parser : ParserInv s → ParserInv t
  bus : BusInv s → BusInv t
  cfg : t.cfg = s.cfg
  calls : t.calls = s.calls

theorem KeepsInv.refl (s : State) : KeepsInv s s := ⟨id, id, rfl, rfl⟩

theorem KeepsInv.trans {s t u : State} (h : KeepsInv s t) (h' : KeepsInv t u) : KeepsInv s u :=
  ⟨h'.parser ∘ h.parser, h'.bus ∘ h.bus, h'.cfg.trans h.cfg, h'.calls.trans h.calls⟩

/-- Work of the main loop keeps what its effect keeps. -/
theorem Passes.keepsInv {f u : State → State} (h : Passes f u) {s : State}
    (hbus : BusInv s → BusInv (u s)) (hcfg : (u s).cfg = s.cfg)
    (hcalls : (u s).calls = s.calls) : KeepsInv s (f s) where
  parser := fun hp => hp.passes h
  bus := fun hb => (hbus hb).congr (by rw [h.eq, deviceSide_interrupted])
  cfg := by rw [h.eq, interrupted_cfg, hcfg]
  calls := by rw [h.eq, interrupted_calls, hcalls]

/-- With the mailbox reopened nothing is pending. -/
theorem ParserInv.clearReady {s : State} (h : ParserInv s) : ParserInv (clearReady s) where
  gate := fun hn => absurd rfl hn
  addrHex := h.addrHex
  count := h.count
  posBound := h.posBound
  pos := h.pos
  pending := pendingOk_of_idle rfl

theorem respected_keepsInv : Respected KeepsInv where
  refl := .refl
  trans := .trans
  strobe _ := passes_strobe.keepsInv (fun h => h.afterStrobe) rfl rfl
  write k a data _ _ :=
    (passes_writeTransfer k a data).keepsInv (fun h => h.afterWrite k a data) rfl rfl
  read k a n _ _ := (passes_readTransfer k a n).keepsInv (fun h => h.afterRead k a n) rfl rfl
  text cs _ := (passes_printLine cs).keepsInv (fun h => h.of_lines rfl rfl rfl rfl) rfl rfl
  buf _ _ :=
    ⟨fun h => h.congr rfl rfl rfl rfl rfl rfl, fun h => h.of_lines rfl rfl rfl rfl, rfl, rfl⟩
  toggle _ :=
    ⟨fun h => h.congr rfl rfl rfl rfl rfl rfl, fun h => h.of_lines rfl rfl rfl rfl, rfl, rfl⟩
  clear _ := ⟨fun h => h.clearReady, fun h => h.of_lines rfl rfl rfl rfl, rfl, rfl⟩
  abort _ := ⟨fun h => h.toIdle 0 (by omega), fun h => h.of_lines rfl rfl rfl rfl, rfl, rfl⟩

theorem KeepsInv.inv {s t : State} (h : KeepsInv s t) (hi : Inv s) : Inv t where
  cfg := h.cfg ▸ hi.cfg
  parser := h.parser hi.parser
  bus := h.bus hi.bus
  calls := by
    rw [h.calls, h.cfg]
    exact hi.calls

/-- Taking the event in front off the input keeps the invariant. -/
theorem Inv.input {s : State} (h : Inv s) (es : List Event) : Inv { s with input := es } where
  cfg := h.cfg
  parser := h.parser.congr rfl rfl rfl rfl rfl rfl
  bus := h.bus.of_lines rfl rfl rfl rfl
  calls := h.calls

theorem Inv.parserStep {s : State} (h : Inv s) (b : Byte) : Inv (parserStep b s) := by
  obtain ⟨p, n, o, sl, a, nl, pay, hf⟩ := parserStep_frame b s
  exact {
    cfg := by rw [hf]; exact h.cfg
    parser := parserStep_inv h.parser b
    bus := h.bus.congr (deviceSide_parserStep b s)
    calls := by rw [hf]; exact h.calls }

/-! ## The reset state -/

theorem parserInv_powerOn (c : Config) : ParserInv (State.powerOn c) where
  gate := fun hn => absurd rfl hn
  addrHex := by constructor <;> rfl
  count := Nat.zero_le _
  posBound := Nat.zero_le _
  pos := trivial
  pending := trivial

theorem busInv_powerOn (c : Config) : BusInv (State.powerOn c) := ⟨rfl, rfl, rfl, rfl, rfl⟩

theorem inv_powerOn {c : Config} (hv : c.Valid) : Inv (State.powerOn c) where
  cfg := hv
  parser := parserInv_powerOn c
  bus := busInv_powerOn c
  calls := nofun

/-- The `Reset` step keeps of the old state only what the environment scripted. -/
theorem inv_resetStep {s : State} (hv : s.cfg.Valid) : Inv (resetStep s) where
  cfg := hv
  parser := (parserInv_powerOn s.cfg).congr rfl rfl rfl rfl rfl rfl
  bus := (busInv_powerOn s.cfg).of_lines rfl rfl rfl rfl
  calls := nofun

/-- An address with a length in the table of `CFG_T` is below 0x80 (R8 (b)). -/
theorem fixture_regLen_eq_zero {a : Byte} (ha : 0x80 ≤ a.toNat) :
    Config.fixture.regLen a = 0 := by
  have hlookup : Config.fixture.table.lookup a = none := by
    rw [List.lookup_eq_none_iff]
    have hlow : ∀ p ∈ Config.fixture.table, p.1.toNat < 0x80 := by simp [Config.fixture]
    intro p hp
    rw [bne_iff_ne]
    rintro rfl
    exact absurd (hlow p hp) (by omega)
  rw [Config.regLen, hlookup]

/-- The configuration of the reset state meets R8 (again, so that no proof leans on a test). -/
theorem fixture_valid : Config.fixture.Valid where
  entries := by decide
  readBit := fun _ => fixture_regLen_eq_zero
  profile0 := by decide
  probe := by decide
  test := by decide
  testLen := by decide
  refdiv := by decide
  refdivLen := by decide
  wire3 := by decide
  wire3Len := by decide
  ampctl := by decide
  ampctlLen := by decide
  alternates := by decide
  idn := by decide

/-! ## The calls of the boot sequence (R206, R271) -/

/-- The address of a transferable register has bit 7 clear, so it is the address of a frame. -/
theorem address_of_transferable {c : Config} (hv : c.Valid) {addr : Byte}
    (hl : 0 < c.regLen addr) :
    addr.getLsbD 7 = false ∧ ((addr.setWidth 7 : RegAddr).setWidth 8 : Byte) = addr := by
  have hlow : addr.toNat < 0x80 := by
    by_contra h
    have := hv.readBit addr (by omega)
    omega
  constructor
  · rw [BitVec.getLsbD, Nat.testBit_lt_two_pow (by omega)]
  · apply BitVec.eq_of_toNat_eq
    simp only [BitVec.toNat_setWidth]
    omega

/-- A write frame of an initialisation register decodes to the write it stands for. -/
theorem decodeFrame_init {c : Config} (hv : c.Valid) {slot : Fin 8} (hk : slot.val < numSlots)
    {addr : Byte} {data : List Byte} (hl : 0 < c.regLen addr)
    (hd : data.length = c.regLen addr) (announce : Bool) :
    decodeFrame slot announce (addr :: data) = .ok (.spiWr slot (addr.setWidth 7) data) := by
  have h8 := regLen_le c addr
  have hpayload : payloadOk data = true := by
    rw [payloadOk, Bool.and_eq_true, decide_eq_true_eq, decide_eq_true_eq]
    omega
  exact decodeFrame_write announce (decide_eq_true hk) (address_of_transferable hv hl).1 hpayload

theorem callOk_initFrame {c : Config} (hv : c.Valid) {slot : Fin 8} (hk : slot.val < numSlots)
    {addr : Byte} {data : List Byte} (hl : 0 < c.regLen addr)
    (hd : data.length = c.regLen addr) : CallOk c (initFrame slot addr data) := by
  refine ⟨_, decodeFrame_init hv hk hl hd false, hk, ?_⟩
  rw [(address_of_transferable hv hl).2]
  exact ⟨hl, hd.ge⟩

theorem callOk_initCalls {c : Config} (hv : c.Valid) {slot : Fin 8} (hk : slot.val < numSlots) :
    ∀ call ∈ initCalls c slot, CallOk c call := by
  have hrefdiv := callOk_initFrame hv hk hv.refdiv hv.refdivLen
  have hwire3 := callOk_initFrame hv hk hv.wire3 hv.wire3Len
  have hampctl := callOk_initFrame hv hk hv.ampctl hv.ampctlLen
  intro call hcall
  rw [initCalls, List.mem_cons, List.mem_cons] at hcall
  rcases hcall with rfl | rfl | hcall
  · exact trivial
  · exact hrefdiv
  split at hcall
  · simp only [List.mem_cons, List.not_mem_nil, or_false] at hcall
    rcases hcall with rfl | rfl
    · exact hwire3
    · exact hampctl
  · cases hcall

theorem callOk_pendingCalls {s : State} (h : Inv s) :
    ∀ call ∈ pendingCalls s, CallOk s.cfg call := by
  have hboot : ∀ call ∈ bootCalls s.cfg, CallOk s.cfg call := by
    intro call hcall
    obtain ⟨slot, hslot, hcall⟩ := List.mem_flatMap.mp hcall
    have hwired : ∀ k ∈ allSlots, k.val < numSlots := by decide
    exact callOk_initCalls h.cfg (hwired slot hslot) call hcall
  intro call hcall
  unfold pendingCalls at hcall
  split at hcall
  · rcases List.mem_append.mp hcall with hcall | hcall
    · exact hboot call hcall
    · exact h.calls call hcall
  · exact h.calls call hcall

/-- Taking the call in front off the list keeps the invariant. -/
theorem Inv.nextCall {s : State} (h : Inv s) {call : Call} {cs : List Call}
    (hc : pendingCalls s = call :: cs) : Inv { s with bootDue := false, calls := cs } where
  cfg := h.cfg
  parser := h.parser.congr rfl rfl rfl rfl rfl rfl
  bus := h.bus.of_lines rfl rfl rfl rfl
  calls := fun d hd => callOk_pendingCalls h d (hc ▸ List.mem_cons_of_mem call hd)

/-! ## Every action keeps the invariant, and every step goes on -/

theorem Inv.act {a : Action} {s t : State} (h : Inv s) (ht : act a s = .next t) : Inv t := by
  cases a with
  | powerOn =>
    cases ht
    exact inv_resetStep h.cfg
  | parse b =>
    cases ht
    exact h.parserStep b
  | run i => exact (respected_keepsInv.exec ht).inv h
  | strobe =>
    cases ht
    exact (respected_keepsInv.strobe s).inv h
  | idlePoll =>
    cases ht
    exact h
  | badMailbox => cases ht
  | badFrame why => cases ht

/-- A frame the Transfer Protocol accepts goes on. -/
theorem exec_of_transferOk {s : State} {i : Instr} (h : TransferOk s.cfg i) :
    ∃ t, exec i s = .next t := by
  cases i with
  | spiWr slot a data =>
    obtain ⟨hk, hl, hd⟩ := h
    exact ⟨_, (runs_devWrite (c := s.cfg) hk hl hd).eq s rfl⟩
  | spiRd slot a announce =>
    obtain ⟨hk, hl⟩ := h
    exact ⟨_, (runs_devRead (c := s.cfg) hk hl announce).eq s rfl⟩
  | _ => exact h.elim

theorem act_callAction {s : State} {call : Call} (h : CallOk s.cfg call) :
    ∃ t, act (callAction call) s = .next t := by
  cases call with
  | strobe => exact ⟨_, rfl⟩
  | frame slot bytes announce =>
    obtain ⟨i, hi, hok⟩ := h
    obtain ⟨t, ht⟩ := exec_of_transferOk hok
    exact ⟨t, by rw [callAction, hi, act, ht]⟩

theorem step_mainTurn {s : State} (h : Inv s) (hm : MainTurn s) : ∃ t, step s = .next t := by
  cases hc : pendingCalls s with
  | cons call cs =>
    rw [step_call hm hc]
    exact act_callAction (callOk_pendingCalls h call (hc ▸ List.mem_cons_self))
  | nil =>
    by_cases ho : s.op = .idle
    · exact ⟨_, step_idle hm hc ho⟩
    · obtain ⟨i, hi, -, hcommand, habort⟩ := mailboxInstr_of_inv h.parser ho
      obtain ⟨t, ht, -⟩ := everyCommandCompletesWithDone { s with input := mainInput s } i h.cfg
        hcommand habort
      exact ⟨t, by rw [step_pending hm hc hi, ht]⟩

/-! ## The statements -/

/-- Settles O48: the event or the call is taken off its list, and the action keeps the invariant. -/
theorem everyStepKeepsTheInvariant : Obligations.EveryStepKeepsTheInvariant := by
  intro s t h ht
  have of_act {a : Action} {u : State} (hs : step s = act a u) (hu : Inv u) : Inv t :=
    hu.act (hs.symm.trans ht)
  rcases step_cases s with ⟨rest, -, hs⟩ | ⟨b, rest, -, -, hs⟩ | ⟨rest, -, hs⟩ |
    ⟨-, call, cs, hc, hs⟩ | ⟨-, -, hs⟩
  · exact of_act (a := .powerOn) hs (h.input rest)
  · exact of_act (a := .parse b) hs (h.input rest)
  · exact of_act (a := .run .abort) hs (h.input rest)
  · exact of_act hs (h.nextCall hc)
  · exact of_act hs (h.input _)

/-- Settles O49: the calls are acceptable and a pending command is complete, so neither stops. -/
theorem noStepStopsUnderTheInvariant : Obligations.NoStepStopsUnderTheInvariant := by
  intro s h
  rcases step_cases s with ⟨rest, -, hs⟩ | ⟨b, rest, -, -, hs⟩ | ⟨rest, -, hs⟩ | ⟨hm, -⟩ | ⟨hm, -⟩
  · exact ⟨_, hs⟩
  · exact ⟨_, hs⟩
  · exact ⟨_, hs⟩
  · exact step_mainTurn h hm
  · exact step_mainTurn h hm

/-- Settles O2. -/
theorem invHoldsAfterPowerOn : Obligations.InvHoldsAfterPowerOn :=
  ⟨inv_powerOn fixture_valid, fun _ => inv_powerOn⟩

end Sys2Proof.Machine

/-! The boot sequence (70_reset_and_hazards.md section 1): one call a step, each with the effect of
the Transfer Protocol call it stands for, whatever bytes arrive in its gaps. -/
namespace Sys2Proof.Machine

/-! ## The calls still to make, as a part of the state no call looks at -/

/-- The boot sequence has begun and these calls are left. -/
def withCalls (cs : List Call) (s : State) : State := { s with bootDue := false, calls := cs }

@[simp] theorem withCalls_input (cs : List Call) (s : State) :
    (withCalls cs s).input = s.input := rfl
@[simp] theorem withCalls_withCalls (cs ds : List Call) (s : State) :
    withCalls cs (withCalls ds s) = withCalls cs s := rfl

theorem parseGaps_withCalls (n : Nat) (cs : List Call) (t : State) :
    parseGaps n (withCalls cs t) = withCalls cs (parseGaps n t) := by
  refine (parseGaps_fromParser n t (withCalls cs t)).trans ?_
  conv => rhs; rw [parseGaps_eq_fromParser]
  rfl

theorem interrupted_withCalls (cs : List Call) (s t : State) :
    interrupted (withCalls cs s) (withCalls cs t) = withCalls cs (interrupted s t) :=
  parseGaps_withCalls _ cs t

theorem MainTurn.congr {s t : State} (h : MainTurn s) (hi : t.input = s.input) : MainTurn t := by
  unfold MainTurn
  rw [hi]
  exact h

/-- A call the main loop is about to make is the same whether the sequence was begun or not. -/
theorem step_withCalls {s : State} (hm : MainTurn s) {call : Call} {cs : List Call}
    (hc : pendingCalls s = call :: cs) : step s = step (withCalls (call :: cs) s) := by
  rw [step_call hm hc, step_call (s := withCalls (call :: cs) s) (hm.congr rfl) rfl]
  rfl

/-! ## One call, and several -/

/-- With configuration `c` the step that makes the call has the effect `u`, which looks
at no call and no event. -/
structure CallRuns (c : Config) (call : Call) (u : State → State) : Prop
    extends Runs c (act (callAction call)) u where
  calls : ∀ cs s, u (withCalls cs s) = withCalls cs (u s)
  input : ∀ s, (u s).input = s.input

/-- The calls, one after the other. -/
inductive CallsRun (c : Config) : List Call → (State → State) → Prop where
  | nil : CallsRun c [] (fun s => s)
  | cons {call : Call} {calls : List Call} {u v : State → State} (h : CallRuns c call u)
      (hs : CallsRun c calls v) : CallsRun c (call :: calls) (fun s => v (u s))

section
variable {c : Config} {u v : State → State}

theorem CallsRun.effect {calls : List Call} (h : CallsRun c calls u) : Effect c u := by
  induction h with
  | nil => exact .id
  | cons h _ ih => exact h.toEffect.comp ih

theorem CallsRun.append {xs ys : List Call} (hx : CallsRun c xs u) (hy : CallsRun c ys v) :
    CallsRun c (xs ++ ys) (fun s => v (u s)) := by
  induction hx with
  | nil => exact hy
  | @cons call calls u w h _ ih => exact CallsRun.cons (v := fun s => v (w s)) h ih

/-- The step that makes a call. -/
theorem CallRuns.step_eq {call : Call} (h : CallRuns c call u) {s : State} (hs : s.cfg = c)
    (hm : MainTurn s) {cs : List Call} (hc : pendingCalls s = call :: cs) :
    step s = .next (withCalls cs (interrupted s (u s))) := by
  have hact : act (callAction call) (withCalls cs s) = _ := h.eq (withCalls cs s) hs
  rw [h.calls, interrupted_withCalls] at hact
  exact (step_call hm hc).trans hact

/-- As many steps as calls drive them all. -/
theorem CallsRun.run_eq {calls : List Call} (h : CallsRun c calls u) {s : State} (hs : s.cfg = c)
    (hm : MainTurn s) (rest : List Call) :
    Sys2Proof.core.run calls.length (withCalls (calls ++ rest) s) =
      .next (withCalls rest (interrupted s (u s))) := by
  induction h generalizing s with
  | nil => simp [Host.Core.run, interrupted, gapsBetween]
  | @cons call calls u v h hcalls ih =>
    have hstep := h.step_eq (s := withCalls (call :: calls ++ rest) s) hs (hm.congr rfl)
      (cs := calls ++ rest) rfl
    rw [h.calls, interrupted_withCalls, withCalls_withCalls] at hstep
    have htraces := h.traces s hs
    have hcfg := h.cfg s hs
    have hinput : (interrupted s (u s)).input = s.input := (interrupted_input _ _).trans (h.input s)
    rw [List.length_cons, run_of_step hstep, ih ((interrupted_cfg _ _).trans hcfg)
      (hm.congr hinput), hcalls.effect.interrupted hcfg htraces]

/-- The calls awaiting before the main loop, with or without the sequence begun. -/
theorem CallsRun.run_pending {calls : List Call} (h : CallsRun c calls u) (hne : calls ≠ [])
    {s : State} (hs : s.cfg = c) (hm : MainTurn s) {rest : List Call}
    (hc : pendingCalls s = calls ++ rest) :
    Sys2Proof.core.run calls.length s = .next (withCalls rest (interrupted s (u s))) := by
  rw [← h.run_eq hs hm rest]
  obtain ⟨call, cs, rfl⟩ := List.exists_cons_of_ne_nil hne
  have hstep : step s = step (withCalls (call :: cs ++ rest) s) := step_withCalls hm hc
  rw [List.length_cons]
  simp only [Host.Core.run, Sys2Proof.core, hstep]

/-! ## The calls of the initialisation (R206) -/

theorem callRuns_strobe : CallRuns c .strobe afterStrobe where
  __ := runs_strobe (c := c)
  calls := fun _ _ => rfl
  input := fun _ => rfl

theorem callRuns_initFrame (hv : c.Valid) {slot : Fin 8} (hk : slot.val < numSlots) {addr : Byte}
    {data : List Byte} (hl : 0 < c.regLen addr) (hd : data.length = c.regLen addr) :
    CallRuns c (initFrame slot addr data) (afterWrite ⟨slot.val, hk⟩ addr data) where
  __ := (runs_devWrite_all hk hl hd).congr_work fun s _ => by
    rw [initFrame, callAction, decodeFrame_init hv hk hl hd false]
    exact congrArg (fun a => devWrite slot a data s) (address_of_transferable hv hl).2
  calls := fun _ _ => rfl
  input := fun _ => rfl

/-- The calls that initialise one slot. -/
theorem callsRun_initCalls (hv : c.Valid) {slot : Fin 8} (hk : slot.val < numSlots) :
    ∃ u, CallsRun c (initCalls c slot) u ∧ ∀ s, s.cfg = c → u s = afterInit ⟨slot.val, hk⟩ s := by
  have hrefdiv := callRuns_initFrame hv hk hv.refdiv hv.refdivLen
  have hwire3 := callRuns_initFrame hv hk hv.wire3 hv.wire3Len
  have hampctl := callRuns_initFrame hv hk hv.ampctl hv.ampctlLen
  unfold initCalls
  cases hr : c.readCapable with
  | true =>
    refine ⟨_, .cons callRuns_strobe (.cons hrefdiv (.cons hwire3 (.cons hampctl .nil))), ?_⟩
    rintro s rfl
    simp only [afterInit, hr, if_true]
  | false =>
    refine ⟨_, .cons callRuns_strobe (.cons hrefdiv .nil), ?_⟩
    rintro s rfl
    simp [afterInit, hr]

/-- The calls of the whole boot initialisation (R271). -/
theorem callsRun_bootCalls (hv : c.Valid) :
    ∃ u, CallsRun c (bootCalls c) u ∧ ∀ s, s.cfg = c → u s = afterInitAll s := by
  obtain ⟨u0, h0, e0⟩ := callsRun_initCalls hv (slot := 0) (by decide)
  obtain ⟨u1, h1, e1⟩ := callsRun_initCalls hv (slot := 1) (by decide)
  obtain ⟨u2, h2, e2⟩ := callsRun_initCalls hv (slot := 2) (by decide)
  obtain ⟨u3, h3, e3⟩ := callsRun_initCalls hv (slot := 3) (by decide)
  refine ⟨_, h0.append (h1.append (h2.append (h3.append .nil))), fun s hs => ?_⟩
  have c0 := h0.effect.cfg s hs
  have c1 := h1.effect.cfg _ c0
  have c2 := h2.effect.cfg _ c1
  rw [e3 _ c2, e2 _ c1, e1 _ c0, e0 s hs]
  rfl

theorem bootCalls_length (c : Config) :
    (bootCalls c).length = 4 * if c.readCapable then 4 else 2 := by
  unfold bootCalls initCalls allSlots
  split <;> rfl

theorem initCalls_ne_nil (c : Config) (slot : Fin 8) : initCalls c slot ≠ [] := nofun

theorem bootCalls_ne_nil (c : Config) : bootCalls c ≠ [] := nofun

theorem afterInit_calls (k : Fin 4) (s : State) : (afterInit k s).calls = s.calls := by
  unfold afterInit
  split <;> rfl

theorem afterInitAll_calls (s : State) : (afterInitAll s).calls = s.calls := by
  simp only [afterInitAll, afterInit_calls]

theorem afterInit_input (k : Fin 4) (s : State) : (afterInit k s).input = s.input := by
  unfold afterInit
  split <;> rfl

theorem afterInitAll_input (s : State) : (afterInitAll s).input = s.input := by
  simp only [afterInitAll, afterInit_input]

end

/-! ## The statements -/

/-- Settles O51: one call a step, with the effects of one slot's initialisation in order. -/
theorem bootCallsInitialiseTheirSlot : Obligations.BootCallsInitialiseTheirSlot := by
  intro s slot h cs hv hm hc
  obtain ⟨u, hu, he⟩ := callsRun_initCalls hv h
  rw [hu.run_pending (initCalls_ne_nil _ _) rfl hm hc, he s rfl]
  rfl

/-- Settles O50, by the step of one call. -/
theorem strobeCallPulsesTheResetLine : Obligations.StrobeCallPulsesTheResetLine :=
  ⟨fun _ _ hm hc => callRuns_strobe.step_eq rfl hm hc, deviceSide_strobe⟩

/-- Settles O46: the boot calls are those of every slot, and with them made the next step is a
poll. -/
theorem bootRunsTheInitialisationOnce : Obligations.BootRunsTheInitialisationOnce := by
  intro c answers n gaps hv s
  refine ⟨fun hboot => ?_, fun hboot => ?_⟩
  · obtain ⟨u, hu, he⟩ := callsRun_bootCalls hv
    have hc : pendingCalls s = bootCalls c ++ [] := by
      have hdue : s.bootDue = true := hboot
      rw [pendingCalls, if_pos hdue]
      rfl
    have hrun := hu.run_pending (bootCalls_ne_nil c) (s := s) rfl (.inl rfl) hc
    rw [bootCalls_length, he s rfl] at hrun
    refine ⟨_, hrun, ?_, fun i hi => ?_⟩
    · have hcalls : (interrupted s (afterInitAll s)).calls = [] := by
        rw [interrupted_calls, afterInitAll_calls]
        rfl
      rw [withCalls, ← hcalls]
    · have hinput : (withCalls [] (interrupted s (afterInitAll s))).input = [] := by
        rw [withCalls_input, interrupted_input, afterInitAll_input]
        rfl
      rw [step_pending (.inl hinput) rfl hi, mainInput_of_nil hinput]
  · have hc : pendingCalls s = [] := by
      have hdue : s.bootDue = false := hboot
      rw [pendingCalls, hdue]
      rfl
    exact (step_idle (.inl rfl) hc rfl).trans (congrArg _ (mainInput_of_nil rfl))

end Sys2Proof.Machine

/-! Statements that compare two runs: the same command with other bytes in its gaps, the
initialisation from two states, and a read after a write against the echo device. -/
namespace Sys2Proof.Machine

/-! ## Bytes that arrive while a command executes (R63 (4), R111) -/

/-- With the gate closed the work goes on in the same way whatever bytes are scripted into its gaps,
and leaves the gate closed. -/
def GapBlind (f : State → Host.Outcome State Fault Refusal) : Prop :=
  ∀ (s t : State) (gaps : List (List Byte)), s.op ≠ .idle → f s = .next t →
    t.op = s.op ∧ NextIs (f { s with gaps := gaps }) t

/-- Work with an effect, at a state where it has one. -/
theorem Runs.gapBlind_at {c : Config} {f : State → Host.Outcome State Fault Refusal}
    {u : State → State} (h : Runs c f u) {s t : State} (hs : s.cfg = c) (ho : s.op ≠ .idle)
    (ht : f s = .next t) (gaps : List (List Byte)) :
    t.op = s.op ∧ NextIs (f { s with gaps := gaps }) t := by
  obtain ⟨g, hg⟩ := h.nextIs hs (.of_busy ho)
  obtain ⟨g', hg'⟩ := h.nextIs (s := { s with gaps := gaps }) hs (.of_busy ho)
  cases ht.symm.trans hg
  have hu : u { s with gaps := gaps } = { u s with gaps := gaps } := by
    refine (h.free { s with gaps := gaps } s hs).trans ?_
    conv => rhs; rw [h.self hs]
    rfl
  exact ⟨h.op_eq hs, g', by rw [hg', hu]⟩

theorem gapBlind_of_runs {f : State → Host.Outcome State Fault Refusal} {u : State → State}
    (h : ∀ c, Runs c f u) : GapBlind f :=
  fun s _ gaps ho ht => (h s.cfg).gapBlind_at rfl ho ht gaps

theorem GapBlind.andThen {f g : State → Host.Outcome State Fault Refusal} (hf : GapBlind f)
    (hg : GapBlind g) : GapBlind (fun s => andThen (f s) g) := by
  intro s t gaps ho ht
  obtain ⟨u, hu, ht⟩ := andThen_eq_next.mp ht
  obtain ⟨hop, g', hf'⟩ := hf s u gaps ho hu
  obtain ⟨hop', g'', hg'⟩ := hg u t g' (hop ▸ ho) ht
  have hseq : Machine.andThen (f { s with gaps := gaps }) g = g { u with gaps := g' } := by
    rw [hf', andThen_next]
  exact ⟨hop'.trans hop, g'', hseq.trans hg'⟩

/-- Work that depends on something of the state other than the gaps. -/
theorem GapBlind.depending {α : Type} {F : α → State → Host.Outcome State Fault Refusal}
    (x : State → α) (hx : ∀ s gaps, x { s with gaps := gaps } = x s) (h : ∀ a, GapBlind (F a)) :
    GapBlind (fun s => F (x s) s) := by
  intro s t gaps ho ht
  have := h (x s) s t gaps ho ht
  rwa [← hx s gaps] at this

theorem GapBlind.ite {p : Prop} [Decidable p] {f g : State → Host.Outcome State Fault Refusal}
    (hf : GapBlind f) (hg : GapBlind g) : GapBlind (fun s => if p then f s else g s) := by
  by_cases hp : p
  · simpa only [if_pos hp] using hf
  · simpa only [if_neg hp] using hg

theorem gapBlind_update {u : State → State} (free : ∀ p t, u (fromParser p t) = fromParser p (u t))
    (hd : ∀ s, (u s).dev = s.dev) (ho : ∀ s, (u s).out = s.out) (hc : ∀ s, (u s).cfg = s.cfg) :
    GapBlind (fun s => .next (u s)) := gapBlind_of_runs fun _ => runs_next free hd ho hc

theorem gapBlind_next : GapBlind .next :=
  gapBlind_update (fun _ _ => rfl) (fun _ => rfl) (fun _ => rfl) fun _ => rfl

theorem gapBlind_printLine (cs : List Byte) : GapBlind (fun s => .next (printLine cs s)) :=
  gapBlind_of_runs fun _ => runs_printLine cs

theorem gapBlind_strobe : GapBlind (fun s => .next (strobe s)) :=
  gapBlind_of_runs fun _ => runs_strobe

theorem gapBlind_raise (e : ErrCause) : GapBlind (raise e) := by
  cases he : e.report with
  | none =>
    have : raise e = .next := funext fun s => by rw [raise, he]
    exact this ▸ gapBlind_next
  | some cs => exact gapBlind_of_runs fun _ => runs_raise he

theorem gapBlind_devWrite (slot : Fin 8) (addr : Byte) (data : List Byte) :
    GapBlind (devWrite slot addr data) := by
  intro s t gaps ho ht
  obtain ⟨hk, hl, hd, -⟩ := devWrite_next ht
  exact (runs_devWrite (c := s.cfg) hk hl hd).gapBlind_at rfl ho ht gaps

theorem gapBlind_devRead (slot : Fin 8) (addr : Byte) (announce : Bool) :
    GapBlind (devRead slot addr announce) := by
  intro s t gaps ho ht
  obtain ⟨hk, hl, -⟩ := devRead_next ht
  exact (runs_devRead (c := s.cfg) hk hl announce).gapBlind_at rfl ho ht gaps

theorem gapBlind_checkSlot (slot : Fin 8) {body : State → Host.Outcome State Fault Refusal}
    (h : GapBlind body) : GapBlind (fun s => checkSlot slot s body) :=
  h.ite (gapBlind_raise .slot)

/-- A write with a register and data of the configuration. -/
theorem gapBlind_devWrite_cfg (slot : Fin 8) (addr : Config → Byte) (data : Config → List Byte) :
    GapBlind (fun s => devWrite slot (addr s.cfg) (data s.cfg) s) :=
  .depending (F := fun c => devWrite slot (addr c) (data c)) State.cfg (fun _ _ => rfl)
    fun _ => gapBlind_devWrite _ _ _

theorem gapBlind_initDevice (slot : Fin 8) : GapBlind (initDevice slot) := by
  have hrefdiv : GapBlind
      (fun s => devWrite slot s.cfg.addrRefdiv s.cfg.dataRefdiv (strobe s)) :=
    .depending
      (F := fun (c : Config) s =>
        andThen (.next (strobe s)) (devWrite slot c.addrRefdiv c.dataRefdiv))
      State.cfg (fun _ _ => rfl) fun _ => gapBlind_strobe.andThen (gapBlind_devWrite _ _ _)
  have hrest : GapBlind (fun s =>
      if s.cfg.readCapable then
        andThen (devWrite slot s.cfg.addr3wire s.cfg.data3wire s) fun s =>
          devWrite slot s.cfg.addrAmpctl s.cfg.dataAmpctl s
      else .next s) :=
    .depending (F := fun c s =>
        if c.readCapable then
          andThen (devWrite slot s.cfg.addr3wire s.cfg.data3wire s) fun s =>
            devWrite slot s.cfg.addrAmpctl s.cfg.dataAmpctl s
        else .next s)
      State.cfg (fun _ _ => rfl) fun _ =>
      ((gapBlind_devWrite_cfg slot _ _).andThen (gapBlind_devWrite_cfg slot _ _)).ite gapBlind_next
  exact hrefdiv.andThen hrest

theorem gapBlind_initDevices (slots : List (Fin 8)) : GapBlind (initDevices slots) := by
  induction slots with
  | nil => exact gapBlind_next
  | cons k ks ih => exact (gapBlind_initDevice k).andThen ih

theorem gapBlind_probeSlots (slots : List (Fin 8)) (found : List Byte) :
    GapBlind (probeSlots slots found) := by
  induction slots generalizing found with
  | nil => exact gapBlind_printLine found
  | cons k ks ih =>
    refine GapBlind.andThen (f := fun s => devRead k s.cfg.addrProbe false s) ?_ ?_
    · exact .depending (F := fun c => devRead k c.addrProbe false) State.cfg (fun _ _ => rfl)
        fun _ => gapBlind_devRead _ _ _
    · exact .depending (F := probeSlots ks)
        (fun s => if s.rrb[2] ≠ 0 then found ++ presenceLabel k else found) (fun _ _ => rfl) ih

theorem gapBlind_loadProfile (slot : Fin 8) : GapBlind (loadProfile slot) := by
  refine .depending (F := fun c s =>
      if c.readCapable then
        andThen (devRead slot c.addrProfile0 false s) fun s => .next { s with buf := s.rrb }
      else .next { s with buf := c.defaultProfile0 })
    State.cfg (fun _ _ => rfl) fun c => GapBlind.ite ?_ ?_
  · exact (gapBlind_devRead _ _ _).andThen
      (gapBlind_update (u := fun s => { s with buf := s.rrb }) (fun _ _ => rfl) (fun _ => rfl)
        (fun _ => rfl) fun _ => rfl)
  · exact gapBlind_update (u := fun s => { s with buf := c.defaultProfile0 }) (fun _ _ => rfl)
      (fun _ => rfl) (fun _ => rfl) fun _ => rfl

theorem gapBlind_storeProfile (slot : Fin 8) (i : Nat) (bytes : List Byte) :
    GapBlind (storeProfile slot i bytes) := by
  have hput : GapBlind (fun s => .next { s with buf := putBytes s.buf i bytes }) :=
    gapBlind_update (u := fun s => { s with buf := putBytes s.buf i bytes }) (fun _ _ => rfl)
      (fun _ => rfl) (fun _ => rfl) fun _ => rfl
  have hwrite : GapBlind (fun s => devWrite slot s.cfg.addrProfile0 s.buf.toList s) :=
    .depending (F := fun p : Byte × List Byte => devWrite slot p.1 p.2)
      (fun s => (s.cfg.addrProfile0, s.buf.toList)) (fun _ _ => rfl)
      fun _ => gapBlind_devWrite _ _ _
  exact hput.andThen hwrite

/-- No rule looks at the bytes that arrive. -/
theorem gapBlind_rule (i : Instr) : GapBlind (rule i) := by
  cases i with
  | resetAll => exact gapBlind_initDevices _
  | presence =>
    exact .depending (F := fun c s => if c.readCapable then probeSlots allSlots [] s
      else raise .noRead s) State.cfg (fun _ _ => rfl)
      fun _ => (gapBlind_probeSlots _ _).ite (gapBlind_raise _)
  | abort =>
    intro s t gaps ho ht
    cases ht.symm.trans (exec_abort_closed ho)
    exact ⟨rfl, gaps, exec_abort_closed (s := { s with gaps := gaps }) ho⟩
  | idn =>
    exact .depending (F := fun c s => .next (printLine c.idnString s)) State.cfg (fun _ _ => rfl)
      fun _ => gapBlind_printLine _
  | test slot =>
    refine gapBlind_checkSlot slot (.depending
      (F := fun p : Byte × List Byte => fun s => devWrite slot p.1 p.2 (toggleTestBit s))
      (fun s => (s.cfg.addrTest, s.cfg.testData (toggleTestBit s).testBit)) (fun _ _ => rfl)
      fun _ => ?_)
    exact (gapBlind_update (u := toggleTestBit) (fun _ _ => rfl) (fun _ => rfl) (fun _ => rfl)
      fun _ => rfl).andThen (gapBlind_devWrite _ _ _)
  | rdreg slot addr =>
    refine gapBlind_checkSlot slot (.depending
      (F := fun c s => if c.regLen addr = 0 then raise .register s
        else if c.readCapable then devRead slot addr true s else raise .noRead s)
      State.cfg (fun _ _ => rfl) fun _ => ?_)
    exact (gapBlind_raise _).ite ((gapBlind_devRead _ _ _).ite (gapBlind_raise _))
  | wrreg slot addr data =>
    have hload : GapBlind (fun s => .next (loadBuf data s)) :=
      gapBlind_update (fun _ _ => rfl) (fun _ => rfl) (fun _ => rfl) fun _ => rfl
    have hwrite (n : Nat) : GapBlind (fun s => devWrite slot addr (s.buf.toList.take n) s) :=
      .depending (F := fun bs => devWrite slot addr bs) (fun s => s.buf.toList.take n)
        (fun _ _ => rfl) fun _ => gapBlind_devWrite _ _ _
    refine gapBlind_checkSlot slot (.depending
      (F := fun c s => if c.regLen addr = 0 then raise .register s
        else if data.length < c.regLen addr then raise .shortWrite s
        else devWrite slot addr ((loadBuf data s).buf.toList.take (c.regLen addr)) (loadBuf data s))
      State.cfg (fun _ _ => rfl) fun _ => ?_)
    exact (gapBlind_raise _).ite ((gapBlind_raise _).ite (hload.andThen (hwrite _)))
  | setf slot f0 f1 f2 f3 =>
    exact gapBlind_checkSlot slot ((gapBlind_loadProfile slot).andThen
      (gapBlind_storeProfile slot _ _))
  | seta slot w0 w1 =>
    exact gapBlind_checkSlot slot ((gapBlind_loadProfile slot).andThen
      (gapBlind_storeProfile slot _ _))
  | setp slot w0 w1 => exact gapBlind_raise .unimplemented
  | spiWr slot a data => exact gapBlind_devWrite _ _ _
  | spiRd slot a announce => exact gapBlind_devRead _ _ _

/-- The epilogue finds the gate closed as well. -/
theorem GapBlind.complete {f : State → Host.Outcome State Fault Refusal} (h : GapBlind f)
    {s t : State} (ho : s.op ≠ .idle) (ht : complete (f s) = .next t) (gaps : List (List Byte)) :
    NextIs (complete (f { s with gaps := gaps })) t := by
  obtain ⟨u, hu, rfl⟩ := complete_eq_next.mp ht
  obtain ⟨hop, g, hg⟩ := h s u gaps ho hu
  have hbusy : u.op ≠ .idle := hop ▸ ho
  exact ⟨_, by
    rw [hg, complete_eq (s := { u with gaps := g }) (.of_busy hbusy), epilogue_eq (.of_busy hbusy)]
    rfl⟩

/-- Settles O44: no rule looks at the gaps, and neither does the epilogue. -/
theorem bytesDuringACommandChangeNothing : Obligations.BytesDuringACommandChangeNothing := by
  intro s t i arriving ho ht
  by_cases hcommand : i.isFrame = false ∧ i ≠ .abort
  · obtain ⟨hc, ha⟩ := hcommand
    rw [exec_eq_complete hc ha] at ht ⊢
    exact (gapBlind_rule i).complete ho ht arriving
  · have hrule : rule i = exec i := by
      cases i with
      | abort => rfl
      | spiWr slot a data => rfl
      | spiRd slot a announce => rfl
      | _ => exact absurd ⟨rfl, nofun⟩ hcommand
    have hblind := gapBlind_rule i
    rw [hrule] at hblind
    exact (hblind s t arriving ho ht).2

/-! ## Two initialisations (R207) -/

/-- From `s` to `t` and from `s'` to `t'` the same events are sent. -/
def SendsAlike (s s' t t' : State) : Prop :=
  ∃ es es', t.dev = s.dev ++ es ∧ t'.dev = s'.dev ++ es' ∧
    es.map DevEvent.sent = es'.map DevEvent.sent

theorem SendsAlike.trans {s s' t t' u u' : State} (h : SendsAlike s s' t t')
    (h' : SendsAlike t t' u u') : SendsAlike s s' u u' := by
  obtain ⟨es, es', ht, ht', he⟩ := h
  obtain ⟨fs, fs', hu, hu', hf⟩ := h'
  exact ⟨es ++ fs, es' ++ fs', by rw [hu, ht, List.append_assoc],
    by rw [hu', ht', List.append_assoc], by rw [List.map_append, List.map_append, he, hf]⟩

theorem sendsAlike_afterStrobe (s s' : State) :
    SendsAlike s s' (afterStrobe s) (afterStrobe s') := ⟨_, _, rfl, rfl, rfl⟩

theorem map_sent_spaced (es : List DevEvent) :
    (spaced es).map DevEvent.sent = spaced (es.map DevEvent.sent) := by
  induction es with
  | nil => rfl
  | cons e es ih =>
    rw [spaced_cons, List.map_append, ih, List.map_cons, spaced_cons (DevEvent.sent e)]
    rfl

/-- Of shifted bytes only what was sent is left. -/
theorem map_sent_shifts (os ans : List Byte) (n : Nat) :
    (shifts os ans n).map DevEvent.sent = os.map (fun o => .shift o 0) := by
  induction os generalizing n with
  | nil => rfl
  | cons o os ih => simp only [shifts_cons, List.map_cons, ih, DevEvent.sent]

theorem sendsAlike_afterWrite (k : Fin 4) (a : Byte) (data : List Byte) (s s' : State) :
    SendsAlike s s' (afterWrite k a data s) (afterWrite k a data s') :=
  ⟨_, _, rfl, rfl, by
    simp only [writeEvents, map_sent_spaced, List.map_append, map_sent_shifts]⟩

theorem sendsAlike_afterInit (k : Fin 4) {s s' : State} (hc : s'.cfg = s.cfg) :
    SendsAlike s s' (afterInit k s) (afterInit k s') := by
  have hrefdiv := (sendsAlike_afterStrobe s s').trans
    (sendsAlike_afterWrite k s.cfg.addrRefdiv s.cfg.dataRefdiv _ _)
  unfold afterInit
  rw [hc]
  split
  · exact (hrefdiv.trans (sendsAlike_afterWrite _ _ _ _ _)).trans (sendsAlike_afterWrite _ _ _ _ _)
  · exact hrefdiv

/-! What the initialisation of one slot leaves. -/

theorem afterInit_cfg (k : Fin 4) (s : State) : (afterInit k s).cfg = s.cfg := by
  unfold afterInit
  split <;> rfl

theorem afterInit_rrb (k : Fin 4) (s : State) : (afterInit k s).rrb = s.rrb := by
  unfold afterInit
  split <;> rfl

theorem afterInit_testBit (k : Fin 4) (s : State) : (afterInit k s).testBit = s.testBit := by
  unfold afterInit
  split <;> rfl

theorem afterInit_rst (k : Fin 4) (s : State) : (afterInit k s).rst = .low := by
  unfold afterInit
  split <;> rfl

theorem afterInit_ioup (k : Fin 4) (s : State) : (afterInit k s).ioup = .low := by
  unfold afterInit
  split <;> rfl

/-- One slot's initialisation releases its chip-select, once or three times. -/
theorem afterInit_cs (k : Fin 4) (s : State) : (afterInit k s).cs = s.cs.set k false := by
  have twice (v : Vector Bool 4) : (v.set k false).set k false = v.set k false := by
    ext j hj
    simp only [Vector.getElem_set]
    split <;> rfl
  unfold afterInit
  split
  · simp only [afterWrite_cs, afterStrobe_cs, twice]
  · rfl

theorem afterInitAll_rrb (s : State) : (afterInitAll s).rrb = s.rrb := by
  simp only [afterInitAll, afterInit_rrb]

theorem afterInitAll_testBit (s : State) : (afterInitAll s).testBit = s.testBit := by
  simp only [afterInitAll, afterInit_testBit]

/-- The initialisation of all slots leaves every line at rest, wherever it was (R207). -/
theorem afterInitAll_cs (s : State) : (afterInitAll s).cs = Vector.replicate 4 false := by
  simp only [afterInitAll, afterInit_cs]
  have released : ∀ v : Vector Bool 4,
      (((v.set (0 : Fin 4) false).set (1 : Fin 4) false).set (2 : Fin 4) false).set (3 : Fin 4)
        false = Vector.replicate 4 false := by
    intro v
    ext j hj
    simp only [Vector.getElem_set, Vector.getElem_replicate]
    interval_cases j <;> rfl
  exact released s.cs

theorem sendsAlike_afterInitAll {s s' : State} (hc : s'.cfg = s.cfg) :
    SendsAlike s s' (afterInitAll s) (afterInitAll s') := by
  have cfg (k : Fin 4) {t t' : State} (h : t'.cfg = t.cfg) :
      (afterInit k t').cfg = (afterInit k t).cfg := by rw [afterInit_cfg, afterInit_cfg, h]
  have c1 := cfg 0 hc
  have c2 := cfg 1 c1
  have c3 := cfg 2 c2
  exact (((sendsAlike_afterInit 0 hc).trans (sendsAlike_afterInit 1 c1)).trans
    (sendsAlike_afterInit 2 c2)).trans (sendsAlike_afterInit 3 c3)

/-- In every state RESET_ALL leaves outside the parser what the initialisation of every slot and the
acknowledgement leave. -/
theorem deviceSide_exec_resetAll {s t : State} (hv : s.cfg.Valid)
    (ht : exec .resetAll s = .next t) :
    deviceSide t = afterText doneLine (deviceSide (afterInitAll s)) := by
  have hrun := (runs_resetAllDevices hv).eq s rfl
  have hexec : exec .resetAll s = complete (resetAllDevices s) := rfl
  rw [hexec, hrun, complete_next] at ht
  cases ht
  have hepilogue (u : State) : deviceSide (epilogue u) = afterText doneLine (deviceSide u) :=
    deviceSide_printLine ackText u
  rw [hepilogue, deviceSide_interrupted]

/-- Settles O45: outside the parser the next state is the effect of the four initialisations. -/
theorem resetAllIsIdempotentOnTheBus : Obligations.ResetAllIsIdempotentOnTheBus := by
  intro s s' t t' hv hc ht ht'
  have hd := deviceSide_exec_resetAll hv ht
  have hd' := deviceSide_exec_resetAll (hc ▸ hv) ht'
  obtain ⟨es, es', hes, hes', hsent⟩ := sendsAlike_afterInitAll hc
  have field {α : Type} (x : State → α) := congrArg x hd
  exact ⟨es, es', (field State.dev).trans hes, (congrArg State.dev hd').trans hes', hsent,
    (field State.rrb).trans (afterInitAll_rrb s),
    (field State.testBit).trans (afterInitAll_testBit s),
    (field State.rst).trans (afterInit_rst 3 _), (field State.ioup).trans (afterInit_ioup 3 _),
    (field State.cs).trans (afterInitAll_cs s)⟩

/-! ## The echo device (95_test_vectors.md section 0.4) -/

theorem Stub.run_append (k : Fin 4) (len : Byte → Nat) (d : Stub) (es fs : List DevEvent) :
    Stub.run k len d (es ++ fs) = Stub.run k len (Stub.run k len d es) fs :=
  List.foldl_append

/-- The device does not see the settle delays. -/
theorem Stub.run_spaced (k : Fin 4) (len : Byte → Nat) (d : Stub) (es : List DevEvent) :
    Stub.run k len d (spaced es) = Stub.run k len d es := by
  induction es generalizing d with
  | nil => rfl
  | cons e es ih => exact ih (Stub.see k len d e)

/-- Payload bytes of a write frame, as many as the register holds, are kept in order. -/
theorem Stub.run_shifts (k : Fin 4) (len : Byte → Nat) {d : Stub} {a : Byte} {os : List Byte}
    (ans : List Byte) (n : Nat) (hsel : d.selected = true) (hfirst : d.first = some a)
    (ha : a.getLsbD 7 = false) (hlen : d.shadow.length + os.length ≤ len a) :
    Stub.run k len d (shifts os ans n) = { d with shadow := d.shadow ++ os } := by
  induction os generalizing d n with
  | nil => rw [shifts_nil, List.append_nil]; rfl
  | cons o os ih =>
    rw [List.length_cons] at hlen
    have hsee : Stub.see k len d (.shift o (answerAt ans n)) =
        { d with shadow := d.shadow ++ [o] } := by
      simp only [Stub.see, hsel, hfirst, if_true]
      rw [if_pos ⟨ha, by omega⟩]
    have hrest := ih (d := { d with shadow := d.shadow ++ [o] }) (n + 1) hsel hfirst
      (by simp only [List.length_append, List.length_singleton]; omega)
    rw [shifts_cons]
    have hfold := congrArg (fun d => Stub.run k len d (shifts os ans (n + 1))) hsee
    refine hfold.trans (hrest.trans ?_)
    simp

/-- A write transfer of at most the register's length leaves the device holding its payload. -/
theorem Stub.run_writeEvents (k : Fin 4) (len : Byte → Nat) (d : Stub) {a : Byte} {data : List Byte}
    (ans : List Byte) (n : Nat) (ha : a.getLsbD 7 = false) (hne : data ≠ [])
    (hlen : data.length ≤ len a) :
    (Stub.run k len d (writeEvents k a data ans n)).reg a = data := by
  have hselect : Stub.run k len d [.rstHigh, .rstLow, .csAssert k, .shift a (answerAt ans n)] =
      { d with selected := true, first := some a, shadow := [] } := by
    simp [Stub.run, Stub.see]
  have hpayload := Stub.run_shifts k len (os := data) ans (n + 1)
    (d := { d with selected := true, first := some a, shadow := [] }) rfl rfl ha
    (by simpa using hlen)
  rw [writeEvents, Stub.run_spaced, shifts_cons]
  have hsplit : [.rstHigh, .rstLow, .csAssert k] ++
        .shift a (answerAt ans n) :: shifts data ans (n + 1) ++
        [.csDeassert k, .ioupHigh, .ioupLow] =
      [.rstHigh, .rstLow, .csAssert k, .shift a (answerAt ans n)] ++ shifts data ans (n + 1) ++
        [DevEvent.csDeassert k, .ioupHigh, .ioupLow] := by simp
  rw [hsplit, Stub.run_append, Stub.run_append, hselect, hpayload]
  simp [Stub.run, Stub.see, hne]

/-- Settles O47: the write transfer leaves the payload in the device, and what the device then
answers is what the read prints. -/
theorem echoDeviceReturnsWhatWasWritten : Obligations.EchoDeviceReturnsWhatWasWritten := by
  intro s t u slot h addr data d hv ho hl hd ht
  have h8 := regLen_le s.cfg addr
  have hdev : t.dev.drop s.dev.length =
      writeEvents ⟨slot.val, h⟩ addr (data.take (s.cfg.regLen addr)) s.answers s.draws := by
    obtain ⟨g, hg⟩ := wrregWritesTheFirstBytesTyped s slot h addr data ho hl hd
    cases ht.symm.trans hg
    simp
  have hlen : (data.take (s.cfg.regLen addr)).length = s.cfg.regLen addr := by
    rw [List.length_take]
    omega
  have hheld : (Stub.run ⟨slot.val, h⟩ s.cfg.regLen d (t.dev.drop s.dev.length)).reg addr =
      data.take (s.cfg.regLen addr) := by
    rw [hdev]
    refine Stub.run_writeEvents _ _ d _ _ (address_of_transferable hv hl).1 ?_ hlen.le
    rw [← List.length_pos_iff, hlen]
    exact hl
  refine ⟨hheld, fun hou hcu hr hanswer => ?_⟩
  rw [hheld] at hanswer
  rw [← hcu] at hl h8 hanswer ⊢
  obtain ⟨g, hg⟩ := rdregPrintsTheCapturedBytes u slot h addr hou hl hr
  refine ⟨_, hg, ?_, ?_⟩
  · rw [← hanswer]
    simp
  · rw [← hanswer]
    exact afterRead_rrb_take ⟨slot.val, h⟩ addr h8 u

end Sys2Proof.Machine
